-- ==== Sys2Proof/Word.lean ====
section
/-! DEFINITION. The word types of the block and nothing else: the widths are those of 00_scope.md rule R7 and
40_pixel_format.md rules R100 and R101. -/

namespace Sys2Proof

/-- One byte of device memory, one colour channel, one character code, one opcode (R7, R72, R100). -/
abbrev Byte := BitVec 8

/-- A coordinate, a stride, a resolution or a cursor register: 16 bits, unsigned (R7). -/
abbrev HalfWord := BitVec 16

/-- The packed form of a pixel in command and response words (R13). -/
abbrev Rgb24 := BitVec 24

/-- The word view of a HardwarePixel, lowest address in bits 7..0 (R11, R101). -/
abbrev PixelWord := BitVec 32

/-- A command word, a response word or a byte address (R7). -/
abbrev Word64 := BitVec 64

end Sys2Proof
end

