-- ==== Sys2Proof/Syntax.lean ====
section
/-! DEFINITION. The nine commands of 30_encoding.md rule R73, one constructor per row of opcode_table.json, with the
operand types of rules R74 to R79. An operand is already split into its fields here; the bits are in Decode.lean. -/

namespace Sys2Proof

/-- The two pixel formats (10_state.md rule R23): which channel stands in the byte at the lowest address. -/
inductive Fmt where
  /-- FMT = 0: RGB-first. -/
  | rgb
  /-- FMT = 1: BGR-first. -/
  | bgr
deriving DecidableEq, Repr

/-- A logical Pixel: three 8-bit channels, every value legal (40_pixel_format.md rule R100). -/
structure Pixel where
  r : Byte
  g : Byte
  b : Byte
deriving DecidableEq, Repr, Inhabited

/-- The frame-buffer descriptor (10_state.md rule R22), the operands of INIT (30_encoding.md rule R79) and the
contents of the five registers that INIT latches. `stride` counts pixels, not bytes. -/
structure Descriptor where
  fmt : Fmt
  stride : HalfWord
  hres : HalfWord
  vres : HalfWord
  base : Word64
deriving DecidableEq, Repr

/-- One command of the block (30_encoding.md rule R73). -/
inductive Instr where
  /-- INIT (R124): construct the block from a descriptor and blank the screen. -/
  | init (d : Descriptor)
  /-- FILL (R125): paint the visible screen with one pixel. -/
  | fill (p : Pixel)
  /-- DRAWPX (R126): write one pixel if it is visible. -/
  | drawpx (h v : HalfWord) (p : Pixel)
  /-- READPX (R127): read one pixel if it is visible. -/
  | readpx (h v : HalfWord)
  /-- PUTC (R168): draw one character at the cursor and advance. -/
  | putc (code : Byte)
  /-- GODOWN (R170): move the cursor down one cell. -/
  | godown
  /-- LINESTART (R171): return the cursor to column 0 of its row. -/
  | linestart
  /-- NEWLINE (R172): move down one row and return to column 0. -/
  | newline
  /-- SETPANIC (R200): switch to the alert palette, for good. -/
  | setpanic
deriving DecidableEq, Repr

end Sys2Proof
end

