-- ==== Sys2Proof/WellFormed.lean ====
section
/-! DEFINITION. Which commands carry operands the block takes, whatever its state: the operand checks of
60_exceptions.md rule R233 step 4. A command that is not well formed still has an encoding and still decodes; the
block answers it with a rejection. -/

namespace Sys2Proof

/-- PrintableChar: the codes 0x20 to 0x7E (42_glyph_rom.md rule R150). -/
def printableCode (c : Byte) : Bool := decide (0x20 ≤ c.toNat ∧ c.toNat ≤ 0x7E)

/-- A Resolution lies in [320×200, 1920×1080], one component at a time (00_scope.md rule R6). -/
def Descriptor.resolutionLegal (d : Descriptor) : Bool :=
  decide ((320 ≤ d.hres.toNat ∧ d.hres.toNat ≤ 1920) ∧ (200 ≤ d.vres.toNat ∧ d.vres.toNat ≤ 1080))

/-- A scanline holds at least the visible pixels (10_state.md rule R22). -/
def Descriptor.strideLegal (d : Descriptor) : Bool := decide (d.hres.toNat ≤ d.stride.toNat)

/-- The base is aligned to a pixel word and the region ends inside the address space (10_state.md rule R22). -/
def Descriptor.baseLegal (d : Descriptor) : Bool :=
  decide (d.base.toNat % 4 = 0 ∧ d.base.toNat + 4 * d.stride.toNat * d.vres.toNat ≤ 2 ^ 64)

/-- The command's own operand checks pass (R233 step 4). -/
def Instr.wellFormed : Instr → Bool
  | .init d => d.resolutionLegal && d.strideLegal && d.baseLegal
  | .fill _ => true
  | .drawpx _ _ _ => true
  | .readpx _ _ => true
  | .putc c => printableCode c
  | .godown => true
  | .linestart => true
  | .newline => true
  | .setpanic => true

end Sys2Proof
end

