-- ==== Sys2Proof/Decode.lean ====
section
/-! DEFINITION. The decoder and the encoder of 30_encoding.md. The unit is the 64-bit command word, not the byte: the
port delivers words (rule R70). Decoding is total (rule R88): a command is one or two words, by its opcode alone
(rule R71), and gives either a command or one of two causes of rejection. -/

namespace Sys2Proof

/-- RGB24(p): red in bits 23..16, green in 15..8, blue in 7..0 (00_scope.md rule R13). -/
def rgb24 (p : Pixel) : Rgb24 := p.r ++ p.g ++ p.b

/-- PIX(v), the inverse of RGB24 (00_scope.md rule R13). -/
def pix (v : Rgb24) : Pixel :=
  { r := v.extractLsb' 16 8, g := v.extractLsb' 8 8, b := v.extractLsb' 0 8 }

/-- FMT = 0 is RGB-first and FMT = 1 is BGR-first (10_state.md rule R23). -/
def fmtOfBit (b : Bool) : Fmt := if b then .bgr else .rgb

/-- The FMT bit of a format (10_state.md rule R23). -/
def fmtBit : Fmt → BitVec 1
  | .rgb => 0#1
  | .bgr => 1#1

/-- The opcode field OPC = w[63:56] (rule R72). -/
def opcodeField (w : Word64) : Byte := w.extractLsb' 56 8

/-- The six formats of rule R72. -/
inductive Format where
  | n | c | f | p | q | i
deriving DecidableEq, Repr

/-- The format of each defined opcode (rule R73); a reserved opcode has none (rule R82). -/
def formatOf (opc : Byte) : Option Format :=
  match opc.toNat with
  | 0x01 => some .i
  | 0x02 => some .f
  | 0x03 => some .p
  | 0x04 => some .q
  | 0x05 => some .c
  | 0x06 => some .n
  | 0x07 => some .n
  | 0x08 => some .n
  | 0x09 => some .n
  | _ => none

/-- The reserved bits of word 0 in each format (60_exceptions.md rule R233). -/
def reservedMask : Format → Word64
  | .n => 0x00FFFFFFFFFFFFFF#64
  | .c => 0x00FFFFFFFFFFFF00#64
  | .f => 0x00FFFFFFFF000000#64
  | .p => 0x0000000000000000#64
  | .q => 0x0000000000FFFFFF#64
  | .i => 0x00FE000000000000#64

/-- The descriptor fields of an INIT (rule R79). -/
def descriptorField (w0 w1 : Word64) : Descriptor :=
  { fmt := fmtOfBit (w0.getLsbD 48)
    stride := w0.extractLsb' 32 16
    hres := w0.extractLsb' 16 16
    vres := w0.extractLsb' 0 16
    base := w1 }

/-- The command a defined opcode names, with its operands (rules R73 to R79); none for a reserved opcode. -/
def commandOf (w0 w1 : Word64) : Option Instr :=
  match (opcodeField w0).toNat with
  | 0x01 => some (.init (descriptorField w0 w1))
  | 0x02 => some (.fill (pix (w0.extractLsb' 0 24)))
  | 0x03 => some (.drawpx (w0.extractLsb' 40 16) (w0.extractLsb' 24 16) (pix (w0.extractLsb' 0 24)))
  | 0x04 => some (.readpx (w0.extractLsb' 40 16) (w0.extractLsb' 24 16))
  | 0x05 => some (.putc (w0.extractLsb' 0 8))
  | 0x06 => some .godown
  | 0x07 => some .linestart
  | 0x08 => some .newline
  | 0x09 => some .setpanic
  | _ => none

/-- Why a command has no decoding (60_exceptions.md rule R233 steps 1 and 2). -/
inductive Malformed where
  /-- The opcode is reserved (rule R82): the block answers REJ_OPCODE. -/
  | opcode
  /-- A reserved bit of the format is 1 (rule R81): the block answers REJ_RESERVED. -/
  | reserved
deriving DecidableEq, Repr

/-- What one framed command decodes to (rule R88). -/
inductive Decoded where
  | command (i : Instr)
  | malformed (cause : Malformed)
deriving DecidableEq, Repr

/-- Decode one framed command: word 0, and word 1 where it is an INIT (rule R233 steps 1 and 2, in that order).
The second argument of a one-word command is not looked at. -/
def decodePair (w0 w1 : Word64) : Decoded :=
  match formatOf (opcodeField w0), commandOf w0 w1 with
  | some fmt, some i => if w0 &&& reservedMask fmt = 0#64 then .command i else .malformed .reserved
  | _, _ => .malformed .opcode

/-- A word whose opcode is INIT starts a two-word command; every other word is a command by itself (rule R71). -/
def startsTwoWords (w : Word64) : Bool := decide (opcodeField w = 0x01#8)

/-- What a decoder reads from the front of the stream of command words. -/
inductive Parsed where
  /-- No whole command is there yet: the stream is empty, or holds an INIT first word alone (rule R34). -/
  | incomplete
  /-- One framed command, and the words after it. -/
  | whole (d : Decoded) (rest : List Word64)
deriving DecidableEq, Repr

/-- Decode the first command of a stream of words (rules R70, R71, R88). Total: every stream has an answer. -/
def decodeStream : List Word64 → Parsed
  | [] => .incomplete
  | w0 :: rest =>
    if startsTwoWords w0 then
      match rest with
      | [] => .incomplete
      | w1 :: rest' => .whole (decodePair w0 w1) rest'
    else .whole (decodePair w0 0#64) rest

/-- The words of a command, every reserved bit 0 (rules R72 to R79, R86). -/
def encode : Instr → List Word64
  | .init d => [0x01#8 ++ 0#7 ++ fmtBit d.fmt ++ d.stride ++ d.hres ++ d.vres, d.base]
  | .fill p => [0x02#8 ++ 0#32 ++ rgb24 p]
  | .drawpx h v p => [0x03#8 ++ h ++ v ++ rgb24 p]
  | .readpx h v => [0x04#8 ++ h ++ v ++ 0#24]
  | .putc c => [0x05#8 ++ 0#48 ++ c]
  | .godown => [0x06#8 ++ 0#56]
  | .linestart => [0x07#8 ++ 0#56]
  | .newline => [0x08#8 ++ 0#56]
  | .setpanic => [0x09#8 ++ 0#56]

/-- The two words of an instruction whose bits, numbered as opcode_table.json numbers them, are `w`: word 0 is bits
63..0 and word 1 is bits 127..64; bits at and above `nbits` are 0. -/
def tableWords (nbits w : Nat) : Word64 × Word64 :=
  (BitVec.ofNat 64 (w % 2 ^ nbits), BitVec.ofNat 64 ((w % 2 ^ nbits) >>> 64))

/-- The instruction the decoder reads from an instruction whose bits are `w`; none where it is malformed. -/
def decodeTableWord (nbits w : Nat) : Option Instr :=
  match decodeStream [(tableWords nbits w).1, (tableWords nbits w).2] with
  | .whole (.command i) _ => some i
  | .whole (.malformed _) _ => none
  | .incomplete => none

end Sys2Proof
end

