-- ==== Sys2Proof/Config.lean ====
section
/-! DEFINITION. The open parameters of 00_scope.md rule R5 and the unknown initial contents of device memory
(20_memory.md rule R67). Each is a constant with no body, so no proof can see its value: the spec gives none
(92_eei_decisions.md D29, D30; log entries 1 and 2). -/

namespace Sys2Proof

/-- A CharColors pair: the pixel for a foreground bit and the pixel for a background bit (R5, R29). -/
structure CharColors where
  fg : Pixel
  bg : Pixel
deriving DecidableEq, Repr, Inhabited

/-- The parameters of the block (00_scope.md rule R5), as plain data, so that a state can carry them and a test can
set them. The cell sizes are stored LESS ONE: `Fin 320` and `Fin 200` are then exactly R5's ranges 1 to 320 and
1 to 200 (`cw` and `ch` in Machine/Operands.lean add the one). -/
structure Params where
  /-- CW - 1 -/
  cwLess1 : Fin 320
  /-- CH - 1 -/
  chLess1 : Fin 200
  /-- The glyph ROM in the layout of 42_glyph_rom.md rule R152: 95*CH rows, a row's low CW bits used. -/
  rom : List (BitVec 320)
  /-- NORMAL_COLORS -/
  normal : CharColors
  /-- PANIC_COLORS -/
  panic : CharColors
deriving DecidableEq, Repr, Inhabited

/-- CW - 1 of the machine that `State.reset` starts: any value of R5's range (D30). -/
opaque Config.cwLess1 : Fin 320

/-- CH - 1 of the machine that `State.reset` starts: any value of R5's range (D30). -/
opaque Config.chLess1 : Fin 200

/-- The glyph bitmaps, which the source does not give (R5, R30, D30). -/
opaque Config.rom : List (BitVec 320)

/-- The Normal palette, which the source does not give (R29, D30). -/
opaque Config.normal : CharColors

/-- The alert palette, which the source does not give (R29, D30). -/
opaque Config.panic : CharColors

/-- MEM0: what a byte of device memory holds before the block writes it (R67, D29). Any value. -/
opaque Config.mem0 : Nat → Byte

/-- The parameters of the machine that `State.reset` starts. -/
def Config.params : Params :=
  { cwLess1 := Config.cwLess1, chLess1 := Config.chLess1, rom := Config.rom,
    normal := Config.normal, panic := Config.panic }

end Sys2Proof
end

