-- ==== Sys2Proof/Machine/State.lean ====
section
/-! DEFINITION. Everything the block holds (10_state.md rule R20 and R34), the device memory it writes (20_memory.md
rule R50), and what stands outside it in a run: the command words and other inputs still to come, the responses
sent, the accesses made on the memory port. All of it is plain data. -/

namespace Sys2Proof.Machine

/-- MODE (R28): which palette is active. -/
inductive Mode where
  | normal
  | panic
deriving DecidableEq, Repr

/-- Device memory: the bytes the block has written, by address. An unlisted address has not been written by the block
(log entry 2); its content is the unknown `Config.mem0` (R67). -/
abbrev Memory := List Host.Cell

/-- The canonical form: addresses strictly rising, none outside the 64-bit address space (R50). An entry holds a
written byte and an unlisted address holds none, so no entry equals what an unlisted address holds, and two memories
with the same written bytes are the same list. -/
abbrev Memory.wf (m : Memory) : Prop :=
  m.Pairwise (fun x y => x.1 < y.1) ∧ ∀ c ∈ m, c.1 < 2 ^ 64

/-- One access on the memory port (R54, R58): always four bytes, with the word read or written in the view of R11. -/
inductive Access where
  | read (addr : Nat) (value : PixelWord)
  | write (addr : Nat) (value : PixelWord)
deriving DecidableEq, Repr

/-- Device memory and the port's history: `trace` holds every access made so far, NEWEST FIRST (R58, R59). -/
structure Device where
  mem : Memory
  trace : List Access
deriving DecidableEq, Repr

/-- A call of the host, the source's Console and the code above it: the entry points and pseudo-instructions of
45_host_console.md and 30_encoding.md rule R87. -/
inductive HostCall where
  /-- construct-console-from-descriptor (R219). -/
  | construct (d : Descriptor)
  /-- print(text) (R210): a Lean `Char` is a Unicode scalar value. -/
  | print (text : List Char)
  /-- The pseudo-instruction TAB (R87). -/
  | tab
  /-- enter-panic-mode (R217). -/
  | enterPanic
  /-- render-fault-report(text) (R218), after which the host issues nothing more (R223). -/
  | faultReport (text : List Char)
deriving DecidableEq, Repr

/-- One input from outside the block (log entry 5). -/
inductive Event where
  /-- The host puts a word on the command port (R70). -/
  | word (w : Word64)
  /-- Reset is asserted while no command runs (R260). -/
  | reset
  /-- The host puts a word on the command port, and reset is asserted after the command it completes has made
  `n` accesses (R262): `n` is the draw that rule leaves to the model (log entry 6). -/
  | wordThenReset (w : Word64) (n : Nat)
  /-- A call the host makes, which its own step turns into command words. -/
  | call (c : HostCall)
deriving DecidableEq, Repr

/-- Why a step stops. Neither is reached from a state that a run can be in (R247, R66): both are there to make the
definitions total, and `Machine.Safe` rules both out. -/
inductive Fault where
  /-- InternalFault(COPY_OUT_OF_GRID) of rule R247, raised by the scroll's pixel copy alone. Safe: the model stops. -/
  | copyOutOfGrid
  /-- An access whose four bytes do not lie in the 64-bit address space (R50), raised by the two memory primitives;
  R52 proves that no descriptor INIT accepts leads to one. Safe: the model stops. -/
  | addressOutOfSpace
deriving DecidableEq, Repr

/-- Why a step has no meaning. No arm of `exec` uses it: all nine commands have their meaning. -/
inductive Refusal where
  /-- Raised by an arm of `exec` that has no meaning yet. Safe: the model stops. -/
  | notModelled (mnemonic : String)
deriving DecidableEq, Repr

/-- The machine. -/
structure State where
  /-- CONFIGURED (R21) -/
  configured : Bool
  /-- FMT, STRIDE, HRES, VRES and BASE (R22), the five registers of the frame-buffer descriptor. -/
  desc : Descriptor
  /-- CUR_H (R25) -/
  curH : HalfWord
  /-- CUR_V (R25) -/
  curV : HalfWord
  /-- MODE (R28) -/
  mode : Mode
  /-- PENDING (R34): the first word of an INIT whose second word has not come yet. -/
  pending : Option Word64
  /-- CW, CH, FONT and the palettes (R5): constants a step takes and never changes (R35; log entry 1). -/
  params : Params
  /-- Device memory and the history of the memory port (R50, R58). -/
  dev : Device
  /-- The inputs still to come, next one first (R70; log entry 5). -/
  input : List Event
  /-- The response words sent, NEWEST FIRST (R84; log entry 5). -/
  responses : List Word64
deriving DecidableEq, Repr

/-- What the descriptor registers hold after reset, where the spec says "no value" (R36; log entry 3). No accepted
command reads it. -/
def Descriptor.unset : Descriptor := { fmt := .rgb, stride := 0#16, hres := 0#16, vres := 0#16, base := 0#64 }

/-- The block right after reset (R36, R260), with no byte of memory written, no input and no response yet. -/
def State.reset : State :=
  { configured := false, desc := Descriptor.unset, curH := 0#16, curV := 0#16, mode := .normal, pending := none,
    params := Config.params, dev := { mem := [], trace := [] }, input := [], responses := [] }

end Sys2Proof.Machine
end

