-- ==== Sys2Proof/Machine/Flags.lean ====
section
/-! DEFINITION. The block has no condition codes: its only flags are CONFIGURED and MODE (10_state.md rule R32). What a
command reports it reports in its response word (60_exceptions.md rule R231, 30_encoding.md rule R84); what MODE
selects is the pair of active colours (10_state.md rule R28). -/

namespace Sys2Proof.Machine

/-- The statuses of rule R231; the codes it does not list are never returned. -/
inductive Status where
  | ok
  | absent
  | rejOpcode
  | rejReserved
  | rejNotConfigured
  | rejAlreadyConfigured
  | rejBadDescriptor
  | rejNotPrintable
deriving DecidableEq, Repr

/-- The code of each status (R231). -/
def Status.code : Status → Byte
  | .ok => 0x00#8
  | .absent => 0x01#8
  | .rejOpcode => 0x80#8
  | .rejReserved => 0x81#8
  | .rejNotConfigured => 0x82#8
  | .rejAlreadyConfigured => 0x83#8
  | .rejBadDescriptor => 0x84#8
  | .rejNotPrintable => 0x85#8

/-- A response word: STATUS in bits 63..56, zero in 55..24, DATA in 23..0 (R84). -/
def responseWord (st : Status) (data : Rgb24) : Word64 := st.code ++ 0#32 ++ data

/-- The cause a malformed command is rejected with (R233 steps 1 and 2). -/
def malformedStatus : Malformed → Status
  | .opcode => .rejOpcode
  | .reserved => .rejReserved

/-- ACTIVE, the CharColors that MODE selects (R28). -/
def activeColors (s : State) : CharColors :=
  match s.mode with
  | .normal => s.params.normal
  | .panic => s.params.panic

end Sys2Proof.Machine
end

