-- ==== Sys2Proof/Machine/Operands.lean ====
section
/-! DEFINITION. What operands and registers denote: pixel words (40_pixel_format.md), pixel addresses
(20_memory.md rule R52), the grid (10_state.md rule R24), glyph bits (42_glyph_rom.md), and the operand checks of
60_exceptions.md rule R233 step 4. Arithmetic is on unbounded naturals, as rule R8 says. -/

namespace Sys2Proof.Machine

/-- Encode (R102, R103): the word view of a Pixel in each format. The reserved byte is 0 (R106). -/
def encodePixel : Fmt → Pixel → PixelWord
  | .rgb, p => 0#8 ++ p.b ++ p.g ++ p.r
  | .bgr, p => 0#8 ++ p.r ++ p.g ++ p.b

/-- Decode (R104, R105): the Pixel of a word in each format. The reserved byte is ignored (R106). -/
def decodePixel : Fmt → PixelWord → Pixel
  | .rgb, w => { r := w.extractLsb' 0 8, g := w.extractLsb' 8 8, b := w.extractLsb' 16 8 }
  | .bgr, w => { r := w.extractLsb' 16 8, g := w.extractLsb' 8 8, b := w.extractLsb' 0 8 }

/-- PixAddr(h, v), computed through the stride and without wrap (R52). -/
def pixAddr (g : Descriptor) (h v : Nat) : Nat := g.base.toNat + 4 * (v * g.stride.toNat + h)

/-- A position is visible when both coordinates are below the resolution (R53). -/
abbrev visible (g : Descriptor) (h v : Nat) : Prop := h < g.hres.toNat ∧ v < g.vres.toNat

/-- The descriptor checks of INIT (R124). -/
abbrev descriptorOk (g : Descriptor) : Prop :=
  (320 ≤ g.hres.toNat ∧ g.hres.toNat ≤ 1920) ∧ (200 ≤ g.vres.toNat ∧ g.vres.toNat ≤ 1080) ∧
  g.hres.toNat ≤ g.stride.toNat ∧ g.base.toNat % 4 = 0 ∧
  g.base.toNat + 4 * g.stride.toNat * g.vres.toNat ≤ 2 ^ 64

/-- PUTC takes the codes 0x20 to 0x7E (R75, R150). -/
abbrev printable (c : Byte) : Prop := 0x20 ≤ c.toNat ∧ c.toNat ≤ 0x7E

/-- CW, the cell width in pixels (R5). -/
def cw (p : Params) : Nat := p.cwLess1.val + 1

/-- CH, the cell height in pixels (R5). -/
def ch (p : Params) : Nat := p.chLess1.val + 1

/-- W, the grid's columns (R24). -/
def gridW (p : Params) (g : Descriptor) : Nat := g.hres.toNat / cw p

/-- H, the grid's rows (R24). -/
def gridH (p : Params) (g : Descriptor) : Nat := g.vres.toNat / ch p

/-- A position lies in the grid: the precondition of CopyOnePixel (R122). -/
abbrev inGrid (p : Params) (g : Descriptor) (h v : Nat) : Prop :=
  h < gridW p g * cw p ∧ v < gridH p g * ch p

/-- The ROM row of glyph row `y` of a character (R152). A ROM with fewer than 95*CH rows reads as background there:
every FONT is the reading of some ROM, so nothing is lost. -/
def glyphRow (p : Params) (c : Byte) (y : Nat) : BitVec 320 :=
  p.rom.getD ((c.toNat - 0x20) * ch p + y) 0#320

/-- GlyphBit(c, y, x), true for FG (R151): bit CW-1-x of the row (R152). -/
def glyphBit (p : Params) (c : Byte) (y x : Nat) : Bool := (glyphRow p c y).getLsbD (cw p - 1 - x)

/-- BitColor (R153): both colours are drawn. -/
def bitColor (cs : CharColors) (bit : Bool) : Pixel := if bit then cs.fg else cs.bg

end Sys2Proof.Machine
end

