-- ==== Sys2Proof/Machine/Ops.lean ====
section
/-! DEFINITION. The operations everything else is made of: the memory port's two primitives (00_scope.md rule R11), the
counted loop of the sequencers (rule R9), the named updates of State, the response and the rejection
(60_exceptions.md rules R230 to R233), reset (70_reset_and_hazards.md rules R260 and R262), and the sequencing of
steps that can stop. The block takes no exception (R238): a rejection is its one response to a command it refuses. -/

namespace Sys2Proof.Machine

/-- What a meaning answers. -/
abbrev Result := Host.Outcome State Fault Refusal

/-! ### Bytes of device memory -/

/-- The byte the block has written at an address, if it has written one. -/
def Memory.read? : Memory → Nat → Option Byte
  | [], _ => none
  | (k, b) :: m, a => if k = a then some b else Memory.read? m a

/-- The byte at an address: what the block wrote there last, else the unknown initial content (R59, R67). -/
def Memory.read (m : Memory) (a : Nat) : Byte := (Memory.read? m a).getD (Config.mem0 a)

/-- Write one byte, keeping the addresses strictly rising. -/
def Memory.write : Memory → Nat → Byte → Memory
  | [], a, b => [(a, b)]
  | (k, c) :: m, a, b =>
    if a < k then (a, b) :: (k, c) :: m
    else if a = k then (a, b) :: m
    else (k, c) :: Memory.write m a b

/-- Four bytes as a word, the lowest address in bits 7..0 (R11). -/
def Memory.read32 (m : Memory) (a : Nat) : PixelWord :=
  Memory.read m (a + 3) ++ Memory.read m (a + 2) ++ Memory.read m (a + 1) ++ Memory.read m a

/-- A word as four bytes, bits 7..0 at the lowest address (R11). -/
def Memory.write32 (m : Memory) (a : Nat) (w : PixelWord) : Memory :=
  Memory.write (Memory.write (Memory.write (Memory.write m a (w.extractLsb' 0 8))
    (a + 1) (w.extractLsb' 8 8)) (a + 2) (w.extractLsb' 16 8)) (a + 3) (w.extractLsb' 24 8)

/-! ### The memory port -/

/-- The four bytes at `a` lie in the 64-bit address space (R50). -/
abbrev inSpace (a : Nat) : Prop := a + 4 ≤ 2 ^ 64

/-- MemRead(a, 4): one access, never elided (R11, R58). -/
def memRead (a : Nat) (d : Device) : Except Fault (PixelWord × Device) :=
  if inSpace a then
    .ok (Memory.read32 d.mem a, { d with trace := .read a (Memory.read32 d.mem a) :: d.trace })
  else .error .addressOutOfSpace

/-- MemWrite(a, 4, w): one access, never elided, even where `w` stands there already (R11, R58). -/
def memWrite (a : Nat) (w : PixelWord) (d : Device) : Except Fault Device :=
  if inSpace a then .ok { mem := Memory.write32 d.mem a w, trace := .write a w :: d.trace }
  else .error .addressOutOfSpace

/-- One access of a recorded history, performed again: a write stores its word, a read stores nothing. -/
def replayAccess (d : Device) : Access → Device
  | .read a w => { d with trace := .read a w :: d.trace }
  | .write a w => { mem := Memory.write32 d.mem a w, trace := .write a w :: d.trace }

/-- The accesses by which `later` is ahead of `earlier`, OLDEST first. -/
def accessesSince (earlier later : Device) : List Access :=
  (later.trace.take (later.trace.length - earlier.trace.length)).reverse

/-! ### Loops -/

/-- `for k in 0 .. n-1`, ascending (R9). -/
def forUp : Nat → (Nat → Device → Except Fault Device) → Device → Except Fault Device
  | 0, _, d => .ok d
  | n + 1, body, d =>
    match forUp n body d with
    | .ok d' => body n d'
    | .error f => .error f

/-! ### Named updates of State -/

/-- The device after some accesses. -/
def State.setDevice (s : State) (d : Device) : State := { s with dev := d }

/-- CUR_H <- h; a value that fits 16 bits, which R25 and R27 prove it does. -/
def State.setCurH (s : State) (h : Nat) : State := { s with curH := BitVec.ofNat 16 h }

/-- CUR_V <- v; a value that fits 16 bits, which R25 and R27 prove it does. -/
def State.setCurV (s : State) (v : Nat) : State := { s with curV := BitVec.ofNat 16 v }

/-- MODE <- PANIC (R200). -/
def State.setPanicMode (s : State) : State := { s with mode := .panic }

/-- The register writes of an accepted INIT (R124): the descriptor, MODE, the cursor, CONFIGURED. -/
def State.construct (s : State) (d : Descriptor) : State :=
  { s with desc := d, mode := .normal, curH := 0#16, curV := 0#16, configured := true }

/-- PENDING <- w (R34). -/
def State.setPending (s : State) (w : Option Word64) : State := { s with pending := w }

/-- The inputs still to come. -/
def State.setInput (s : State) (es : List Event) : State := { s with input := es }

/-- respond(STATUS, DATA): the command's one response word (R12, R84). -/
def State.respond (s : State) (st : Status) (data : Rgb24) : State :=
  { s with responses := responseWord st data :: s.responses }

/-- reject(CAUSE) (R12, R232): a response with DATA = 0, and nothing else. -/
def State.reject (s : State) (cause : Status) : State := s.respond cause 0#24

/-- Reset (R36, R260): every register of the block to its reset value. Device memory, the port's history, the
constants, the inputs to come and the responses sent are not the block's registers and stay. -/
def State.applyReset (s : State) : State :=
  { s with configured := false, desc := Descriptor.unset, curH := 0#16, curV := 0#16, mode := .normal, pending := none }

/-! ### Sequencing -/

/-- The statement after one that can stop. -/
def andThen : Result → (State → Result) → Result
  | .next s, k => k s
  | .fault f, _ => .fault f
  | .refused r, _ => .refused r

/-- Run an operation on the device, and go on with the state that has its result. -/
def onDevice (s : State) (op : Device → Except Fault Device) (k : State → Result) : Result :=
  match op s.dev with
  | .ok d => k (s.setDevice d)
  | .error f => .fault f

/-- respond(OK, 0), the end of every completed command but a READPX (R84). -/
def respondOk (s : State) : Result := .next (s.respond .ok 0#24)

/-- Decode check 3 for a command other than INIT (R233): REJ_NOT_CONFIGURED while CONFIGURED = 0. -/
def ifConfigured (s : State) (body : Result) : Result :=
  if s.configured then body else .next (s.reject .rejNotConfigured)

end Sys2Proof.Machine
end

