-- ==== Sys2Proof/Machine/Framebuffer.lean ====
section
/-! DEFINITION. The framebuffer access unit of 41_framebuffer.md: the four primitives, and the commands INIT, FILL,
DRAWPX and READPX. -/

namespace Sys2Proof.Machine

/-- DrawPixelIfVisible (R120): outside the resolution a silent no-op, with no access. -/
def drawPixelIfVisible (g : Descriptor) (h v : Nat) (p : Pixel) (d : Device) : Except Fault Device :=
  if visible g h v then memWrite (pixAddr g h v) (encodePixel g.fmt p) d else .ok d

/-- GetPixelIfVisible (R121): absent outside the resolution, with no access. -/
def getPixelIfVisible (g : Descriptor) (h v : Nat) (d : Device) : Except Fault (Option Pixel × Device) :=
  if visible g h v then
    match memRead (pixAddr g h v) d with
    | .ok (w, d') => .ok (some (decodePixel g.fmt w), d')
    | .error f => .error f
  else .ok (none, d)

/-- CopyOnePixel (R122): the raw word, reserved byte included, read before it is written; no colour conversion. -/
def copyOnePixel (p : Params) (g : Descriptor) (dh dv sh sv : Nat) (d : Device) : Except Fault Device :=
  if inGrid p g sh sv ∧ inGrid p g dh dv then
    match memRead (pixAddr g sh sv) d with
    | .ok (w, d') => memWrite (pixAddr g dh dv) w d'
    | .error f => .error f
  else .error .copyOutOfGrid

/-- Draw a rectangle of `w` by `h` pixels with its top-left corner at (h0, v0), top to bottom and left to right: the
loop that Fill (R123), BlitGlyph (R154) and ClearCell (R165) share. -/
def paint (g : Descriptor) (h0 v0 w h : Nat) (color : Nat → Nat → Pixel) : Device → Except Fault Device :=
  forUp h fun y => forUp w fun x => drawPixelIfVisible g (h0 + x) (v0 + y) (color y x)

/-- Fill (R123): every visible pixel, scanline by scanline; margins too, padding not. -/
def fillScreen (g : Descriptor) (p : Pixel) : Device → Except Fault Device :=
  paint g 0 0 g.hres.toNat g.vres.toNat fun _ _ => p

/-- INIT (R124). -/
def execInit (d : Descriptor) (s : State) : Result :=
  if s.configured then .next (s.reject .rejAlreadyConfigured)
  else if descriptorOk d then onDevice (s.construct d) (fillScreen d s.params.normal.bg) respondOk
  else .next (s.reject .rejBadDescriptor)

/-- FILL (R125). -/
def execFill (p : Pixel) (s : State) : Result :=
  ifConfigured s (onDevice s (fillScreen s.desc p) respondOk)

/-- DRAWPX (R126): OK whether or not the pixel was visible. -/
def execDrawpx (h v : HalfWord) (p : Pixel) (s : State) : Result :=
  ifConfigured s (onDevice s (drawPixelIfVisible s.desc h.toNat v.toNat p) respondOk)

/-- READPX (R127): OK with the pixel, or ABSENT. -/
def execReadpx (h v : HalfWord) (s : State) : Result :=
  ifConfigured s
    (match getPixelIfVisible s.desc h.toNat v.toNat s.dev with
     | .ok (some p, d) => .next ((s.setDevice d).respond .ok (rgb24 p))
     | .ok (none, d) => .next ((s.setDevice d).respond .absent 0#24)
     | .error f => .fault f)

end Sys2Proof.Machine
end

