-- ==== Sys2Proof/Machine/CharBuffer.lean ====
section
/-! DEFINITION. The blit sequencer of 42_glyph_rom.md and the scroll-grid engine of 43_charbuffer.md: the blit, the
scroll, the scroll check, and the commands PUTC, GODOWN, LINESTART and NEWLINE. -/

namespace Sys2Proof.Machine

/-- BlitGlyph (R154): the whole cell is repainted, background bits too (R153). -/
def blitGlyph (p : Params) (g : Descriptor) (cs : CharColors) (c : Byte) (h0 v0 : Nat) :
    Device → Except Fault Device :=
  paint g h0 v0 (cw p) (ch p) fun y x => bitColor cs (glyphBit p c y x)

/-- CopyCell (R163): cell (scol, srow) onto cell (dcol, drow), raw, top to bottom and left to right. -/
def copyCell (p : Params) (g : Descriptor) (dcol drow scol srow : Nat) : Device → Except Fault Device :=
  forUp (ch p) fun y => forUp (cw p) fun x =>
    copyOnePixel p g (dcol * cw p + x) (drow * ch p + y) (scol * cw p + x) (srow * ch p + y)

/-- Scroll step 1 (R163, R164): rows 1 to H-1 in strictly ascending order, each onto the row above. The loop counts
the destination row. -/
def shiftRowsUp (p : Params) (g : Descriptor) : Device → Except Fault Device :=
  forUp (gridH p g - 1) fun row => forUp (gridW p g) fun col => copyCell p g col row col (row + 1)

/-- ClearCell (R165). -/
def clearCell (p : Params) (g : Descriptor) (col row : Nat) (bg : Pixel) : Device → Except Fault Device :=
  paint g (col * cw p) (row * ch p) (cw p) (ch p) fun _ _ => bg

/-- Scroll step 2 (R165): every cell of row H-1 to the background. -/
def clearLastRow (p : Params) (g : Descriptor) (bg : Pixel) : Device → Except Fault Device :=
  forUp (gridW p g) fun col => clearCell p g col (gridH p g - 1) bg

/-- Scroll (R167): shift, clear with the active background, and re-anchor the cursor at column 0 of the last row
(R166). -/
def scroll (s : State) : Result :=
  onDevice s (shiftRowsUp s.params s.desc) fun s1 =>
    onDevice s1 (clearLastRow s.params s.desc (activeColors s).bg) fun s2 =>
      .next ((s2.setCurH 0).setCurV ((gridH s.params s.desc - 1) * ch s.params))

/-- ScrollCheck (R162): scroll where a full cell no longer fits below CUR_V. -/
def scrollCheck (s : State) : Result :=
  if s.desc.vres.toNat < s.curV.toNat + ch s.params then scroll s else .next s

/-- Down one cell, then the scroll check: the source's go_down (R162, R170). -/
def goDown (s : State) : Result := scrollCheck (s.setCurV (s.curV.toNat + ch s.params))

/-- To column 0, then the scroll check: the source's go_to_line_start (R162, R171). -/
def goToLineStart (s : State) : Result := scrollCheck (s.setCurH 0)

/-- Wrap where no further whole cell fits on the row (R169; 90_conflicts.md C1): column 0, one cell down, and the
scroll check. -/
def wrapIfFull (s : State) : Result :=
  if s.desc.hres.toNat < s.curH.toNat + cw s.params then
    scrollCheck ((s.setCurH 0).setCurV (s.curV.toNat + ch s.params))
  else .next s

/-- One cell to the right, then the line wrap (R168). -/
def advanceCursor (s : State) : Result := wrapIfFull (s.setCurH (s.curH.toNat + cw s.params))

/-- PUTC (R168). -/
def execPutc (code : Byte) (s : State) : Result :=
  ifConfigured s
    (if printable code then
      onDevice s (blitGlyph s.params s.desc (activeColors s) code s.curH.toNat s.curV.toNat) fun s1 =>
        andThen (advanceCursor s1) respondOk
    else .next (s.reject .rejNotPrintable))

/-- GODOWN (R170). -/
def execGodown (s : State) : Result := ifConfigured s (andThen (goDown s) respondOk)

/-- LINESTART (R171). -/
def execLinestart (s : State) : Result := ifConfigured s (andThen (goToLineStart s) respondOk)

/-- NEWLINE (R172): go_down, then go_to_line_start. -/
def execNewline (s : State) : Result :=
  ifConfigured s (andThen (andThen (goDown s) goToLineStart) respondOk)

end Sys2Proof.Machine
end

