-- ==== Sys2Proof/Machine/Console.lean ====
section
/-! DEFINITION. The panic-mode command of 44_console_mode.md. -/

namespace Sys2Proof.Machine

/-- SETPANIC (R200): no memory access, and no effect beyond OK where MODE is PANIC already. -/
def execSetpanic (s : State) : Result := ifConfigured s (respondOk s.setPanicMode)

end Sys2Proof.Machine
end

