-- ==== Sys2Proof/Machine/Dispatch.lean ====
section
/-! DEFINITION. One arm per command of 30_encoding.md rule R73. -/

namespace Sys2Proof.Machine

-- The meaning of a decoded command: decode checks 3 and 4, then the command's pseudocode (60_exceptions.md R233).
def exec (i : Instr) (s : State) : Host.Outcome State Fault Refusal :=
  match i with
  | .init d => Sys2Proof.Machine.execInit d s
  | .fill p => Sys2Proof.Machine.execFill p s
  | .drawpx h v p => Sys2Proof.Machine.execDrawpx h v p s
  | .readpx h v => Sys2Proof.Machine.execReadpx h v s
  | .putc code => Sys2Proof.Machine.execPutc code s
  | .godown => Sys2Proof.Machine.execGodown s
  | .linestart => Sys2Proof.Machine.execLinestart s
  | .newline => Sys2Proof.Machine.execNewline s
  | .setpanic => Sys2Proof.Machine.execSetpanic s

end Sys2Proof.Machine
end

