-- ==== Sys2Proof/Machine/HostConsole.lean ====
section
/-! DEFINITION. The host's translation of text and calls into commands, 45_host_console.md. This is not block logic
(00_scope.md rule R4): it is the other agent of a run (60_exceptions.md rule R243). -/

namespace Sys2Proof.Machine

/-- The UTF-8 bytes of a scalar value (R215). -/
def utf8Bytes (u : Nat) : List Byte :=
  if u < 0x80 then [BitVec.ofNat 8 u]
  else if u < 0x800 then [BitVec.ofNat 8 (0xC0 ||| u >>> 6), BitVec.ofNat 8 (0x80 ||| (u &&& 0x3F))]
  else if u < 0x10000 then
    [BitVec.ofNat 8 (0xE0 ||| u >>> 12), BitVec.ofNat 8 (0x80 ||| (u >>> 6 &&& 0x3F)),
     BitVec.ofNat 8 (0x80 ||| (u &&& 0x3F))]
  else
    [BitVec.ofNat 8 (0xF0 ||| u >>> 18), BitVec.ofNat 8 (0x80 ||| (u >>> 12 &&& 0x3F)),
     BitVec.ofNat 8 (0x80 ||| (u >>> 6 &&& 0x3F)), BitVec.ofNat 8 (0x80 ||| (u &&& 0x3F))]

/-- One byte of a UTF-8 sequence on its own: a printable byte is a PUTC, any other is dropped (R214). -/
def byteCommands (b : Byte) : List Instr := if printable b then [.putc b] else []

/-- TAB: four spaces, whatever the column (R87, R213). -/
def tabCommands : List Instr := List.replicate 4 (.putc 0x20#8)

/-- The commands print issues for one scalar value (R211 to R214). -/
def charCommands (c : Char) : List Instr :=
  if c.toNat = 0x0A then [.newline]
  else if c.toNat = 0x0D then [.linestart]
  else if c.toNat = 0x09 then tabCommands
  else (utf8Bytes c.toNat).flatMap byteCommands

/-- The commands print issues for a text, one scalar value after another (R210). -/
def printCommands (text : List Char) : List Instr := text.flatMap charCommands

/-- The command words of some commands, as inputs on the port, in order. -/
def commandEvents (is : List Instr) : List Event := (is.flatMap encode).map .word

/-- What is left of the inputs once the host idles for good: nothing before the next reset, and then what follows it
(R223, R260; log entry 7). A word the host no longer sends leaves the reset that came after it. -/
def idleUntilReset : List Event → List Event
  | [] => []
  | .reset :: rest => .reset :: rest
  | .wordThenReset _ _ :: rest => .reset :: rest
  | .word _ :: rest => idleUntilReset rest
  | .call _ :: rest => idleUntilReset rest

/-- One step of the host: a call becomes the words it stands for, put before the inputs that follow it (R87, R210 to
R219). A print gives the words of one scalar value at a time. After a fault report the host issues nothing until the
process starts again, that is until reset (R223, R260; log entry 7). -/
def hostStep : HostCall → List Event → List Event
  | .construct d, rest => commandEvents [.init d] ++ rest
  | .print [], rest => rest
  | .print (c :: text), rest => commandEvents (charCommands c) ++ .call (.print text) :: rest
  | .tab, rest => commandEvents tabCommands ++ rest
  | .enterPanic, rest => commandEvents [.setpanic] ++ rest
  | .faultReport text, rest =>
    commandEvents [.setpanic] ++ .call (.print text) :: idleUntilReset rest

end Sys2Proof.Machine
end

