-- ==== Sys2Proof/Machine/Port.lean ====
section
/-! DEFINITION. The command port (30_encoding.md rules R70 and R71), the reset input (70_reset_and_hazards.md rules R260
and R262) and the choice of what the next input does. -/

namespace Sys2Proof.Machine

/-- One framed command runs: decode checks 1 and 2, then the command's meaning (60_exceptions.md R233). -/
def runFramed (w0 w1 : Word64) (s : State) : Result :=
  match decodePair w0 w1 with
  | .command i => exec i s
  | .malformed cause => .next (s.reject (malformedStatus cause))

/-- A word arrives (R34, R71): the second word of a held INIT completes it, an INIT first word is held, and any other
word is a command by itself. -/
def deliverWord (w : Word64) (s : State) : Result :=
  match s.pending with
  | some w0 => runFramed w0 w (s.setPending none)
  | none => if startsTwoWords w then .next (s.setPending (some w)) else runFramed w 0#64 s

/-- Reset while the command that takes `s` to `t` runs, after the first `n` of its accesses (R262): the registers are
reset, no response is sent, and device memory has the writes among those accesses. -/
def cutShort (n : Nat) (s t : State) : State :=
  s.applyReset.setDevice (((accessesSince s.dev t.dev).take n).foldl replayAccess s.dev)

/-- The next input does what it does. A call of the host becomes command words, which later steps deliver. -/
def takeEvent (e : Event) (s : State) : Result :=
  match e with
  | .word w => deliverWord w s
  | .reset => .next s.applyReset
  | .wordThenReset w n => andThen (deliverWord w s) fun t => .next (cutShort n s t)
  | .call c => .next (s.setInput (hostStep c s.input))

/-- One step: the next input, or nothing where there is none and the block waits (60_exceptions.md R245). -/
def nextStep (s : State) : Result :=
  match s.input with
  | [] => .next s
  | e :: rest => takeEvent e (s.setInput rest)

/-- `s` with a framed command on the port, so that the next step runs it: an INIT's first word held and its second
word next, any other word next (R34, R71). -/
def withCommand (s : State) (w0 w1 : Word64) : State :=
  if startsTwoWords w0 then (s.setPending (some w0)).setInput (.word w1 :: s.input)
  else (s.setPending none).setInput (.word w0 :: s.input)

end Sys2Proof.Machine
end

