-- ==== Sys2Proof/Machine/Step.lean ====
section
/-! DEFINITION. The step of the machine, and how the host's checks place an instruction where the next step takes it. -/

namespace Sys2Proof.Machine

/-- One step of the machine: one input taken (Machine/Port.lean). -/
def step (s : State) : Host.Outcome State Fault Refusal := nextStep s

/-- `s` with the instruction whose bits are `w` (numbered as opcode_table.json numbers them) next on the command port. -/
def State.withFetchWord (s : State) (nbits w : Nat) : State :=
  withCommand s (tableWords nbits w).1 (tableWords nbits w).2

end Sys2Proof.Machine
end

