-- ==== Sys2Proof/Machine/Assembler.lean ====
section
/-! DEFINITION. The assembly syntax of 30_encoding.md rules R86 and R87: one command per line, as text, to the inputs it
stands for. The block never sees text; a program written in this form is a list of inputs. -/

namespace Sys2Proof.Machine

/-- The pieces of a line of R86. -/
inductive Token where
  | name (cs : List Char)
  | number (n : Nat)
  /-- `#rrggbb` -/
  | color (v : Rgb24)
  /-- `'c'` -/
  | letter (c : Char)
  /-- `"text"`, taken as it stands (log entry 8) -/
  | text (cs : List Char)
  | comma
deriving DecidableEq, Repr

/-- The value of a hexadecimal digit, whose letters may be of either case (DESIGN CHOICE, log entry 16). -/
def hexDigit (c : Char) : Option Nat :=
  if 0x30 ≤ c.toNat ∧ c.toNat ≤ 0x39 then some (c.toNat - 0x30)
  else if 0x41 ≤ c.toNat ∧ c.toNat ≤ 0x46 then some (c.toNat - 0x41 + 10)
  else if 0x61 ≤ c.toNat ∧ c.toNat ≤ 0x66 then some (c.toNat - 0x61 + 10)
  else none

/-- Digits in a base, most significant first; none where there is no digit or one is not of the base. -/
def digitsValue (base : Nat) : List Char → Option Nat
  | [] => none
  | cs => cs.foldl (fun acc c => do
      let a ← acc
      let d ← hexDigit c
      if d < base then some (a * base + d) else none) (some 0)

/-- Numbers are decimal, or hexadecimal with `0x` (R86). -/
def numberValue : List Char → Option Nat
  | '0' :: 'x' :: ds => digitsValue 16 ds
  | ds => digitsValue 10 ds

/-- `#rrggbb` is six hexadecimal digits giving the RGB24 field (R86). -/
def colorValue (ds : List Char) : Option Rgb24 :=
  if ds.length = 6 then (digitsValue 16 ds).map (BitVec.ofNat 24) else none

/-- The pieces of a line up to its comment (R86). `fuel` bounds the number of steps; the line's length is enough. R86 is
silent on spacing. DESIGN CHOICE (log entry 16): a space, a tab and a carriage return are blank, and may stand between any
two pieces or not at all; a `;` between quotes or apostrophes is text and starts no comment. -/
def lex : Nat → List Char → Option (List Token)
  | 0, [] => some []
  | 0, _ :: _ => none
  | _ + 1, [] => some []
  | fuel + 1, c :: cs =>
    if c = ';' then some []
    else if c = ' ' ∨ c = '\t' ∨ c = '\r' then lex fuel cs
    else if c = ',' then (lex fuel cs).map (Token.comma :: ·)
    else if c = '\'' then
      match cs with
      | k :: '\'' :: rest => (lex fuel rest).map (Token.letter k :: ·)
      | _ => none
    else if c = '"' then
      match cs.dropWhile (· ≠ '"') with
      | [] => none
      | _ :: rest => (lex fuel rest).map (Token.text (cs.takeWhile (· ≠ '"')) :: ·)
    else if c = '#' then do
      let v ← colorValue (cs.takeWhile Char.isAlphanum)
      (lex fuel (cs.dropWhile Char.isAlphanum)).map (Token.color v :: ·)
    else if c.isDigit then do
      let v ← numberValue (c :: cs.takeWhile Char.isAlphanum)
      (lex fuel (cs.dropWhile Char.isAlphanum)).map (Token.number v :: ·)
    else if c.isAlpha then
      (lex fuel (cs.dropWhile Char.isAlphanum)).map (Token.name (c :: cs.takeWhile Char.isAlphanum) :: ·)
    else none

/-- A number that fits its field (R72): the assembler has no other range check. -/
def fits (width n : Nat) : Option (BitVec width) := if n < 2 ^ width then some (BitVec.ofNat width n) else none

/-- The format names of R86, in capitals (DESIGN CHOICE, log entry 16). -/
def formatName (cs : List Char) : Option Fmt :=
  if cs = ['R', 'G', 'B'] then some .rgb else if cs = ['B', 'G', 'R'] then some .bgr else none

/-- The command of a line (R86). -/
def lineCommand (op : List Char) (operands : List Token) : Option Instr :=
  if op = ['I', 'N', 'I', 'T'] then
    match operands with
    | [.name f, .comma, .number st, .comma, .number h, .comma, .number v, .comma, .number b] => do
      let fmt ← formatName f
      let stride ← fits 16 st
      let hres ← fits 16 h
      let vres ← fits 16 v
      let base ← fits 64 b
      some (.init { fmt := fmt, stride := stride, hres := hres, vres := vres, base := base })
    | _ => none
  else if op = ['F', 'I', 'L', 'L'] then
    match operands with
    | [.color c] => some (.fill (pix c))
    | _ => none
  else if op = ['D', 'R', 'A', 'W', 'P', 'X'] then
    match operands with
    | [.number h, .comma, .number v, .comma, .color c] => do
      let h ← fits 16 h
      let v ← fits 16 v
      some (.drawpx h v (pix c))
    | _ => none
  else if op = ['R', 'E', 'A', 'D', 'P', 'X'] then
    match operands with
    | [.number h, .comma, .number v] => do
      let h ← fits 16 h
      let v ← fits 16 v
      some (.readpx h v)
    | _ => none
  else if op = ['P', 'U', 'T', 'C'] then
    match operands with
    | [.letter c] => if c.toNat < 0x80 then some (.putc (BitVec.ofNat 8 c.toNat)) else none
    | [.number n] => (fits 8 n).map .putc
    | _ => none
  else if op = ['G', 'O', 'D', 'O', 'W', 'N'] ∧ operands = [] then some .godown
  else if op = ['L', 'I', 'N', 'E', 'S', 'T', 'A', 'R', 'T'] ∧ operands = [] then some .linestart
  else if op = ['N', 'E', 'W', 'L', 'I', 'N', 'E'] ∧ operands = [] then some .newline
  else if op = ['S', 'E', 'T', 'P', 'A', 'N', 'I', 'C'] ∧ operands = [] then some .setpanic
  else none

/-- The pseudo-instruction of a line (R87). -/
def linePseudo (op : List Char) (operands : List Token) : Option HostCall :=
  if op = ['T', 'A', 'B'] ∧ operands = [] then some .tab
  else if op = ['P', 'R', 'I', 'N', 'T'] then
    match operands with
    | [.text cs] => some (.print cs)
    | _ => none
  else if op = ['F', 'A', 'U', 'L', 'T', 'R', 'E', 'P', 'O', 'R', 'T'] then
    match operands with
    | [.text cs] => some (.faultReport cs)
    | _ => none
  else none

/-- The inputs a line stands for (R86, R87); no answer where it is not of the syntax. R86 says one command per line and is
silent on a line without one. DESIGN CHOICE (log entry 16): a line that is empty, or all blank, or holds a comment alone
stands for no inputs. -/
def assembleLine (line : List Char) : Option (List Event) :=
  match lex line.length line with
  | none => none
  | some [] => some []
  | some (.name op :: operands) =>
    match lineCommand op operands, linePseudo op operands with
    | some i, _ => some (commandEvents [i])
    | none, some c => some [.call c]
    | none, none => none
  | some _ => none

/-- The inputs a program stands for, one command per line (R86). DESIGN CHOICE (log entry 16): a line feed ends a line, and
a program with one wrong line has no answer. -/
def assemble (program : List Char) : Option (List Event) :=
  ((program.splitOn '\n').mapM assembleLine).map List.flatten

end Sys2Proof.Machine
end

