-- ==== Sys2Proof/Safety.lean ====
section
/-! DEFINITION. What holds of every state a run can be in: the invariants of 10_state.md rules R22 and R27, of
20_memory.md rules R56, R59 and R67, and of 40_pixel_format.md rule R107, in the words the statements use. `Safe`
gathers them; a step from a `Safe` state answers a next state that is `Safe`. -/

namespace Sys2Proof.Machine

/-- Device memory after the writes of a history (NEWEST access first), from memory the block has not written. -/
def historyMem : List Access → Memory
  | [] => []
  | .read _ _ :: earlier => historyMem earlier
  | .write a w :: earlier => Memory.write32 (historyMem earlier) a w

/-- Each read of a history returned what the writes before it left, or the initial content (R59). -/
def readsConsistent : List Access → Prop
  | [] => True
  | .read a w :: earlier => w = Memory.read32 (historyMem earlier) a ∧ readsConsistent earlier
  | .write _ _ :: earlier => readsConsistent earlier

/-- The byte address of an access. -/
def Access.addr : Access → Nat
  | .read a _ => a
  | .write a _ => a

/-- The word an access read or wrote. -/
def Access.value : Access → PixelWord
  | .read _ w => w
  | .write _ w => w

/-- An access is a write. -/
def Access.isWrite : Access → Bool
  | .read _ _ => false
  | .write _ _ => true

/-- The memory port: memory is in its canonical form and is what the history of accesses made it, every read returned
what the order of R59 gives it, and every access was aligned and inside the address space (R50, R56). -/
structure DeviceOk (d : Device) : Prop where
  canonical : Memory.wf d.mem
  fromHistory : d.mem = historyMem d.trace
  reads : readsConsistent d.trace
  aligned : ∀ acc ∈ d.trace, acc.addr % 4 = 0 ∧ inSpace acc.addr

/-- The cursor stands on the top-left pixel of a grid cell (R27). -/
def CursorInGrid (s : State) : Prop :=
  ∃ k r, k < gridW s.params s.desc ∧ r < gridH s.params s.desc ∧
    s.curH.toNat = k * cw s.params ∧ s.curV.toNat = r * ch s.params

/-- Every visible pixel word has been written by the block (R67), and its reserved byte is 0 (R106, R107). -/
def ScreenWritten (g : Descriptor) (m : Memory) : Prop :=
  ∀ h v, visible g h v →
    (∀ i, i < 4 → (Memory.read? m (pixAddr g h v + i)).isSome) ∧ Memory.read? m (pixAddr g h v + 3) = some 0#8

/-- What holds once INIT has been accepted (R22, R27, R67). -/
structure ConfiguredOk (s : State) : Prop where
  descriptor : descriptorOk s.desc
  cursor : CursorInGrid s
  screen : ScreenWritten s.desc s.dev.mem

/-- What holds before INIT: the registers still have their reset values (R36, R261). -/
structure UnconfiguredOk (s : State) : Prop where
  desc : s.desc = Descriptor.unset
  curH : s.curH = 0#16
  curV : s.curV = 0#16
  mode : s.mode = .normal

/-- A state that a run can be in. -/
structure Safe (s : State) : Prop where
  device : DeviceOk s.dev
  pending : ∀ w, s.pending = some w → startsTwoWords w = true
  configured : s.configured = true → ConfiguredOk s
  unconfigured : s.configured = false → UnconfiguredOk s

/-! ### What a command does to device memory, for the statements -/

/-- `a` is one of the four bytes of pixel (h, v). -/
def inPixel (g : Descriptor) (h v a : Nat) : Prop := pixAddr g h v ≤ a ∧ a < pixAddr g h v + 4

/-- The four bytes at `a` have been written and are the bytes of `w`, bits 7..0 at the lowest address (R11). -/
def holdsWord (m : Memory) (a : Nat) (w : PixelWord) : Prop :=
  ∀ k, k < 4 → Memory.read? m (a + k) = some (w.extractLsb' (8 * k) 8)

/-- Each visible pixel of a rectangle holds its colour in the configured format, and no other byte of memory has
changed (R120, R123, R154). -/
structure Painted (g : Descriptor) (h0 v0 w h : Nat) (color : Nat → Nat → Pixel) (m m' : Memory) : Prop where
  inside : ∀ y x, y < h → x < w → visible g (h0 + x) (v0 + y) →
    holdsWord m' (pixAddr g (h0 + x) (v0 + y)) (encodePixel g.fmt (color y x))
  outside : ∀ a, (∀ y x, y < h → x < w → visible g (h0 + x) (v0 + y) → ¬ inPixel g (h0 + x) (v0 + y) a) →
    Memory.read? m' a = Memory.read? m a

/-- The cell of glyph `c` at (h0, v0) has been drawn in the colours `cs`, foreground and background bits (R153, R154). -/
def GlyphDrawn (p : Params) (g : Descriptor) (cs : CharColors) (c : Byte) (h0 v0 : Nat) (m m' : Memory) : Prop :=
  Painted g h0 v0 (cw p) (ch p) (fun y x => bitColor cs (glyphBit p c y x)) m m'

/-- What a scroll does to memory (R165, R167, R176): every cell of rows 1 to H-1 moves up one row as raw words, the last
row's cells hold the background, and no byte outside the grid has changed. -/
structure Scrolled (p : Params) (g : Descriptor) (bg : Pixel) (m m' : Memory) : Prop where
  shifted : ∀ col row x y, col < gridW p g → row + 1 < gridH p g → x < cw p → y < ch p →
    holdsWord m' (pixAddr g (col * cw p + x) (row * ch p + y))
      (Memory.read32 m (pixAddr g (col * cw p + x) ((row + 1) * ch p + y)))
  cleared : ∀ col x y, col < gridW p g → x < cw p → y < ch p →
    holdsWord m' (pixAddr g (col * cw p + x) ((gridH p g - 1) * ch p + y)) (encodePixel g.fmt bg)
  outside : ∀ a, (∀ h v, inGrid p g h v → ¬ inPixel g h v a) → Memory.read? m' a = Memory.read? m a

/-- The block is configured with a descriptor INIT accepts, and the cursor is on column `k` of row `r` of the grid: the
condition under which every command but INIT runs (R27, R233). -/
structure AtCell (s : State) (k r : Nat) : Prop where
  configured : s.configured = true
  descriptor : descriptorOk s.desc
  column : k < gridW s.params s.desc
  row : r < gridH s.params s.desc
  curH : s.curH.toNat = k * cw s.params
  curV : s.curV.toNat = r * ch s.params

/-- The state after a command that ends with OK: the cursor at (h, v), the device `d`, one response, and every other
register as it was. -/
def doneAt (s : State) (h v : Nat) (d : Device) : State :=
  { s with
    curH := BitVec.ofNat 16 h
    curV := BitVec.ofNat 16 v
    dev := d
    responses := responseWord .ok 0#24 :: s.responses }

/-- The accesses of a glyph's cell at (h0, v0), oldest first: one write a pixel, top to bottom and left to right (R154). -/
def glyphWrites (p : Params) (g : Descriptor) (cs : CharColors) (c : Byte) (h0 v0 : Nat) : List Access :=
  (List.range (ch p)).flatMap fun y => (List.range (cw p)).map fun x =>
    .write (pixAddr g (h0 + x) (v0 + y)) (encodePixel g.fmt (bitColor cs (glyphBit p c y x)))

/-- The accesses of a scroll from memory `m`, oldest first: each pixel of rows 1 to H-1 is read and then written one row
up, rows ascending, then columns, then the cell's pixels; then the last row is written with the background (R163 to
R165, R167). -/
def scrollTrace (p : Params) (g : Descriptor) (bg : Pixel) (m : Memory) : List Access :=
  ((List.range (gridH p g - 1)).flatMap fun row => (List.range (gridW p g)).flatMap fun col =>
    (List.range (ch p)).flatMap fun y => (List.range (cw p)).flatMap fun x =>
      [.read (pixAddr g (col * cw p + x) ((row + 1) * ch p + y))
         (Memory.read32 m (pixAddr g (col * cw p + x) ((row + 1) * ch p + y))),
       .write (pixAddr g (col * cw p + x) (row * ch p + y))
         (Memory.read32 m (pixAddr g (col * cw p + x) ((row + 1) * ch p + y)))]) ++
  (List.range (gridW p g)).flatMap fun col => (List.range (ch p)).flatMap fun y => (List.range (cw p)).map fun x =>
    .write (pixAddr g (col * cw p + x) ((gridH p g - 1) * ch p + y)) (encodePixel g.fmt bg)

/-- The last column of the last row, where a PUTC scrolls; the last row, where a GODOWN or a NEWLINE does (R162). -/
def scrollsAt (i : Instr) (p : Params) (g : Descriptor) (k r : Nat) : Prop :=
  match i with
  | .init _ => False
  | .fill _ => False
  | .drawpx _ _ _ => False
  | .readpx _ _ => False
  | .putc _ => k + 1 = gridW p g ∧ r + 1 = gridH p g
  | .godown => r + 1 = gridH p g
  | .linestart => False
  | .newline => r + 1 = gridH p g
  | .setpanic => False

/-- The reads of an accepted command other than its scroll (R270). -/
def ownReads (i : Instr) (g : Descriptor) : Nat :=
  match i with
  | .init _ => 0
  | .fill _ => 0
  | .drawpx _ _ _ => 0
  | .readpx h v => if visible g h.toNat v.toNat then 1 else 0
  | .putc _ => 0
  | .godown => 0
  | .linestart => 0
  | .newline => 0
  | .setpanic => 0

/-- The writes of an accepted command other than its scroll (R270). -/
def ownWrites (i : Instr) (p : Params) (g : Descriptor) : Nat :=
  match i with
  | .init d => d.hres.toNat * d.vres.toNat
  | .fill _ => g.hres.toNat * g.vres.toNat
  | .drawpx h v _ => if visible g h.toNat v.toNat then 1 else 0
  | .readpx _ _ => 0
  | .putc _ => cw p * ch p
  | .godown => 0
  | .linestart => 0
  | .newline => 0
  | .setpanic => 0

/-- PUTC of each code of a list, one after another. -/
def putAll : List Byte → State → Result
  | [], s => .next s
  | c :: cs, s => andThen (exec (.putc c) s) (putAll cs)

end Sys2Proof.Machine
end

