-- ==== Sys2Proof/Certificates/Slice0/Obligations.lean ====
section
/-! DEFINITION. The statements for the provers, from the numbered rules of spec/. OBLIGATIONS.json gives each its rules. -/

open Sys2Proof Sys2Proof.Machine

/-! ### Encoding (30_encoding.md) -/

/-- Decoding the words of any command, with any words after them, gives the command and those words. -/
def Obligations.DecodingAnEncodedCommandGivesItBack : Prop :=
  ∀ (i : Instr) (rest : List Word64), decodeStream (encode i ++ rest) = .whole (.command i) rest

/-- A command has one encoding: words that decode to it are its encoding (R72 to R83). -/
def Obligations.EveryDecodedCommandHasOneEncoding : Prop :=
  ∀ (ws rest : List Word64) (i : Instr), decodeStream ws = .whole (.command i) rest → ws = encode i ++ rest

/-- Words written out from the spec's encodings decode to the commands they stand for: INIT, FILL, DRAWPX, READPX,
PUTC and the four of format N (95_test_vectors.md V-EN-1 to V-EN-8). -/
def Obligations.WordsOfTheSpecDecodeToTheirCommands : Prop :=
  decodePair 0x0101028802800190#64 0x0000000080000000#64 =
    .command (.init { fmt := .bgr, stride := 648#16, hres := 640#16, vres := 400#16, base := 0x80000000#64 }) ∧
  decodePair 0x010002840284019A#64 0x0000000020000000#64 =
    .command (.init { fmt := .rgb, stride := 644#16, hres := 644#16, vres := 410#16, base := 0x20000000#64 }) ∧
  decodePair 0x0200000000102030#64 0#64 = .command (.fill { r := 0x10#8, g := 0x20#8, b := 0x30#8 }) ∧
  decodePair 0x03027F018FFF0000#64 0#64 = .command (.drawpx 639#16 399#16 { r := 0xFF#8, g := 0#8, b := 0#8 }) ∧
  decodePair 0x04027F018F000000#64 0#64 = .command (.readpx 639#16 399#16) ∧
  decodePair 0x0500000000000041#64 0#64 = .command (.putc 0x41#8) ∧
  decodePair 0x0600000000000000#64 0#64 = .command .godown ∧
  decodePair 0x0700000000000000#64 0#64 = .command .linestart ∧
  decodePair 0x0800000000000000#64 0#64 = .command .newline ∧
  decodePair 0x0900000000000000#64 0#64 = .command .setpanic

/-- A word with a reserved opcode is a command by itself and is answered REJ_OPCODE with no other effect (R82). -/
def Obligations.ReservedOpcodesAreRejected : Prop :=
  ∀ (s : State) (w : Word64) (rest : List Event), s.pending = none → s.input = .word w :: rest →
    (w.extractLsb' 56 8 = 0x00#8 ∨ 0x0A ≤ (w.extractLsb' 56 8).toNat) →
    step s = .next { s with input := rest, responses := responseWord .rejOpcode 0#24 :: s.responses }

/-- A one-word command of a defined opcode with a reserved bit set is answered REJ_RESERVED, whatever the state, and so
is an INIT, whose two words are both used; nothing else changes (R81, with the masks of R233). -/
def Obligations.ReservedBitsAreRejected : Prop :=
  (∀ (s : State) (w mask : Word64) (rest : List Event), s.pending = none → s.input = .word w :: rest →
    ((w.extractLsb' 56 8 = 0x02#8 ∧ mask = 0x00FFFFFFFF000000#64) ∨ (w.extractLsb' 56 8 = 0x04#8 ∧ mask = 0x0000000000FFFFFF#64) ∨
      (w.extractLsb' 56 8 = 0x05#8 ∧ mask = 0x00FFFFFFFFFFFF00#64) ∨
      (0x06 ≤ (w.extractLsb' 56 8).toNat ∧ (w.extractLsb' 56 8).toNat ≤ 0x09 ∧ mask = 0x00FFFFFFFFFFFFFF#64)) →
    w &&& mask ≠ 0#64 →
    step s = .next { s with input := rest, responses := responseWord .rejReserved 0#24 :: s.responses }) ∧
  (∀ (s : State) (w0 w1 : Word64) (rest : List Event), s.pending = some w0 → s.input = .word w1 :: rest →
    w0.extractLsb' 56 8 = 0x01#8 → w0 &&& 0x00FE000000000000#64 ≠ 0#64 →
    step s = .next { s with input := rest, pending := none, responses := responseWord .rejReserved 0#24 :: s.responses })

/-- The port (R34, R71): an INIT first word is held; the next word, whatever it is, completes the pair; a word that
decodes to a command runs it on the state the port leaves. The last clause, that a step with no input answers the same
state, is the model's choice (log entry 10). -/
def Obligations.StepRunsTheDecodedCommand : Prop :=
  (∀ (s : State) (w : Word64) (rest : List Event) (i : Instr), s.pending = none → s.input = .word w :: rest →
    startsTwoWords w = false → decodePair w 0#64 = .command i → step s = exec i { s with input := rest }) ∧
  (∀ (s : State) (w : Word64) (rest : List Event), s.pending = none → s.input = .word w :: rest →
    startsTwoWords w = true → step s = .next { s with input := rest, pending := some w }) ∧
  (∀ (s : State) (w0 w1 : Word64) (rest : List Event) (i : Instr), s.pending = some w0 → s.input = .word w1 :: rest →
    decodePair w0 w1 = .command i → step s = exec i { s with input := rest, pending := none }) ∧
  (∀ s : State, s.input = [] → step s = .next s)

/-- The words of any command, put on an idle port, run that command: one step a word, and the last runs it. -/
def Obligations.WordsOfACommandRunIt : Prop :=
  ∀ (s : State) (i : Instr) (rest : List Event), s.pending = none → s.input = commandEvents [i] ++ rest →
    (if (encode i).length = 2 then andThen (step s) step else step s) = exec i { s with input := rest }

/-! ### The converter and the address calculator (40_pixel_format.md, 20_memory.md) -/

/-- The bytes of a pixel word, hp0 in bits 7..0 (R101): red, green, blue in the RGB-first format and blue, green, red in
the BGR-first one, then the reserved byte 0 (R102, R103); and the same bytes read back, the reserved one ignored (R104,
R105). -/
def Obligations.PixelBytesStandInTheOrderOfTheFormat : Prop :=
  (∀ p : Pixel, (encodePixel .rgb p).extractLsb' 0 8 = p.r ∧ (encodePixel .rgb p).extractLsb' 8 8 = p.g ∧
    (encodePixel .rgb p).extractLsb' 16 8 = p.b ∧ (encodePixel .rgb p).extractLsb' 24 8 = 0x00#8 ∧
    (encodePixel .bgr p).extractLsb' 0 8 = p.b ∧ (encodePixel .bgr p).extractLsb' 8 8 = p.g ∧
    (encodePixel .bgr p).extractLsb' 16 8 = p.r ∧ (encodePixel .bgr p).extractLsb' 24 8 = 0x00#8) ∧
  ∀ hp0 hp1 hp2 hp3 : Byte, decodePixel .rgb (hp3 ++ hp2 ++ hp1 ++ hp0) = { r := hp0, g := hp1, b := hp2 } ∧
    decodePixel .bgr (hp3 ++ hp2 ++ hp1 ++ hp0) = { r := hp2, g := hp1, b := hp0 }

/-- Encode and Decode are lossless from Pixel, and lossless from a word exactly where its reserved byte is 0; a word that
Encode makes has reserved byte 0 (R107). -/
def Obligations.PixelConversionRoundTrips : Prop :=
  ∀ (f : Fmt) (p : Pixel) (w : PixelWord), decodePixel f (encodePixel f p) = p ∧
    (encodePixel f (decodePixel f w) = w ↔ w.extractLsb' 24 8 = 0#8) ∧ (encodePixel f p).extractLsb' 24 8 = 0#8

/-- Reading a word in the other format swaps red and blue and keeps green (R108). -/
def Obligations.OtherFormatSwapsRedAndBlue : Prop :=
  ∀ p : Pixel, decodePixel .bgr (encodePixel .rgb p) = { r := p.b, g := p.g, b := p.r } ∧
    decodePixel .rgb (encodePixel .bgr p) = { r := p.b, g := p.g, b := p.r }

/-- The pixel address is computed through the stride, without wrap (R52): under the checks of INIT every visible pixel's
four bytes lie in the region and in the address space, its offset is below 1080 * 65535 + 1920 and so below 2^27, its
address is aligned (R56), and no two visible pixels share a byte. -/
def Obligations.VisiblePixelsLieInTheRegion : Prop :=
  ∀ (g : Descriptor) (h v : Nat), descriptorOk g → visible g h v →
    pixAddr g h v = g.base.toNat + 4 * (v * g.stride.toNat + h) ∧
    4 * (v * g.stride.toNat + h) + 4 ≤ 4 * g.stride.toNat * g.vres.toNat ∧
    pixAddr g h v + 3 < g.base.toNat + 4 * g.stride.toNat * g.vres.toNat ∧
    g.base.toNat + 4 * g.stride.toNat * g.vres.toNat ≤ 2 ^ 64 ∧
    v * g.stride.toNat + h < 1080 * 65535 + 1920 ∧ v * g.stride.toNat + h < 2 ^ 27 ∧ pixAddr g h v % 4 = 0 ∧
    (∀ h' v' a, visible g h' v' → inPixel g h v a → inPixel g h' v' a → h' = h ∧ v' = v)

/-! ### Framebuffer commands (41_framebuffer.md) -/

/-- INIT with a good descriptor (R124): it latches the descriptor, sets MODE to NORMAL, the cursor to (0, 0) and
CONFIGURED, and writes the Normal background to every visible pixel, scanline by scanline (R123), one write each and
nothing else. -/
def Obligations.InitConfiguresAndBlanks : Prop :=
  ∀ (s : State) (d : Descriptor), s.configured = false → 320 ≤ d.hres.toNat → d.hres.toNat ≤ 1920 →
    200 ≤ d.vres.toNat → d.vres.toNat ≤ 1080 → d.hres.toNat ≤ d.stride.toNat → d.base.toNat % 4 = 0 →
    d.base.toNat + 4 * d.stride.toNat * d.vres.toNat ≤ 2 ^ 64 →
    ∃ dev, exec (.init d) s = .next
        { s with
          configured := true
          desc := d
          mode := .normal
          curH := 0#16
          curV := 0#16
          dev := dev
          responses := responseWord .ok 0#24 :: s.responses } ∧
      Painted d 0 0 d.hres.toNat d.vres.toNat (fun _ _ => s.params.normal.bg) s.dev.mem dev.mem ∧
      dev.trace.reverse = s.dev.trace.reverse ++
        (List.range d.vres.toNat).flatMap fun v => (List.range d.hres.toNat).map fun h =>
          .write (pixAddr d h v) (encodePixel d.fmt s.params.normal.bg)

/-- INIT on a configured block is answered REJ_ALREADY_CONFIGURED, whatever its operands (R21, R233); on an
unconfigured one it is answered REJ_BAD_DESCRIPTOR exactly where a check of R124 fails. Nothing else changes. -/
def Obligations.InitIsRejected : Prop :=
  (∀ (s : State) (d : Descriptor), s.configured = true →
    exec (.init d) s = .next { s with responses := responseWord .rejAlreadyConfigured 0#24 :: s.responses }) ∧
  (∀ (s : State) (d : Descriptor), s.configured = false →
    (d.hres.toNat < 320 ∨ 1920 < d.hres.toNat ∨ d.vres.toNat < 200 ∨ 1080 < d.vres.toNat ∨
      d.stride.toNat < d.hres.toNat ∨ d.base.toNat % 4 ≠ 0 ∨
      2 ^ 64 < d.base.toNat + 4 * d.stride.toNat * d.vres.toNat) →
    exec (.init d) s = .next { s with responses := responseWord .rejBadDescriptor 0#24 :: s.responses })

/-- FILL (R125): every visible pixel holds the pixel given; one write each, in R123's order; the padding, the cursor and
MODE are unchanged. -/
def Obligations.FillPaintsTheVisibleScreen : Prop :=
  ∀ (s : State) (p : Pixel), s.configured = true → descriptorOk s.desc →
    ∃ dev, exec (.fill p) s = .next { s with dev := dev, responses := responseWord .ok 0#24 :: s.responses } ∧
      Painted s.desc 0 0 s.desc.hres.toNat s.desc.vres.toNat (fun _ _ => p) s.dev.mem dev.mem ∧
      dev.trace.reverse = s.dev.trace.reverse ++
        (List.range s.desc.vres.toNat).flatMap fun v => (List.range s.desc.hres.toNat).map fun h =>
          .write (pixAddr s.desc h v) (encodePixel s.desc.fmt p)

/-- DRAWPX (R126, R120): a visible pixel is written, by one access even where the word stands there already, and no
other byte changes; elsewhere nothing is accessed; the answer is OK both ways. -/
def Obligations.DrawpxWritesOneVisiblePixel : Prop :=
  ∀ (s : State) (h v : HalfWord) (p : Pixel), s.configured = true → descriptorOk s.desc →
    (visible s.desc h.toNat v.toNat → ∃ mem, exec (.drawpx h v p) s = .next
        { s with
          dev := { mem := mem, trace := .write (pixAddr s.desc h.toNat v.toNat) (encodePixel s.desc.fmt p) :: s.dev.trace }
          responses := responseWord .ok 0#24 :: s.responses } ∧
      holdsWord mem (pixAddr s.desc h.toNat v.toNat) (encodePixel s.desc.fmt p) ∧
      ∀ a, ¬ inPixel s.desc h.toNat v.toNat a → Memory.read? mem a = Memory.read? s.dev.mem a) ∧
    (¬ visible s.desc h.toNat v.toNat → exec (.drawpx h v p) s =
      .next { s with responses := responseWord .ok 0#24 :: s.responses })

/-- READPX (R127, R121): a visible pixel is read by one access and answered in RGB24; elsewhere nothing is accessed and
the answer is ABSENT. Memory and every register are unchanged. -/
def Obligations.ReadpxAnswersThePixel : Prop :=
  ∀ (s : State) (h v : HalfWord), s.configured = true → descriptorOk s.desc →
    (visible s.desc h.toNat v.toNat → exec (.readpx h v) s = .next
      { s with
        dev :=
          { mem := s.dev.mem
            trace := .read (pixAddr s.desc h.toNat v.toNat) (Memory.read32 s.dev.mem (pixAddr s.desc h.toNat v.toNat)) ::
              s.dev.trace }
        responses := responseWord .ok (rgb24 (decodePixel s.desc.fmt
          (Memory.read32 s.dev.mem (pixAddr s.desc h.toNat v.toNat)))) :: s.responses }) ∧
    (¬ visible s.desc h.toNat v.toNat → exec (.readpx h v) s =
      .next { s with responses := responseWord .absent 0#24 :: s.responses })

/-- A DRAWPX followed by a READPX of the same position answers the pixel drawn, or makes no access and answers ABSENT
where the position is not visible (R128). -/
def Obligations.DrawThenReadGivesThePixel : Prop :=
  ∀ (s : State) (h v : HalfWord) (p : Pixel), s.configured = true → descriptorOk s.desc →
    ∃ t u, exec (.drawpx h v p) s = .next t ∧ exec (.readpx h v) t = .next u ∧
      (visible s.desc h.toNat v.toNat →
        u.responses = responseWord .ok (rgb24 p) :: responseWord .ok 0#24 :: s.responses) ∧
      (¬ visible s.desc h.toNat v.toNat →
        u.dev = s.dev ∧ u.responses = responseWord .absent 0#24 :: responseWord .ok 0#24 :: s.responses)

/-! ### The grid and the glyph ROM (10_state.md, 42_glyph_rom.md) -/

/-- The grid (R24): W and H are the floor of resolution by cell size, at least 1 and at most 1920 and 1080 under the checks
of INIT; every cell lies left of the right margin and above the bottom margin, and a margin is empty where the resolution
is a multiple of the cell size. Every cell size of R5, and no other, is that of some parameters. -/
def Obligations.GridIsTheResolutionInWholeCells : Prop :=
  (∀ (p : Params) (g : Descriptor), gridW p g = g.hres.toNat / cw p ∧ gridH p g = g.vres.toNat / ch p ∧
    (descriptorOk g → 1 ≤ gridW p g ∧ gridW p g ≤ 1920 ∧ 1 ≤ gridH p g ∧ gridH p g ≤ 1080) ∧
    gridW p g * cw p ≤ g.hres.toNat ∧ gridH p g * ch p ≤ g.vres.toNat ∧
    (g.hres.toNat % cw p = 0 → gridW p g * cw p = g.hres.toNat) ∧
    (g.vres.toNat % ch p = 0 → gridH p g * ch p = g.vres.toNat) ∧
    (∀ col row x y, col < gridW p g → row < gridH p g → x < cw p → y < ch p →
      col * cw p + x < gridW p g * cw p ∧ row * ch p + y < gridH p g * ch p)) ∧
  ∀ w h : Nat, (∃ p, cw p = w ∧ ch p = h) ↔ (1 ≤ w ∧ w ≤ 320) ∧ 1 ≤ h ∧ h ≤ 200

/-- A glyph bit (R151, R152): bit CW-1-x of ROM row (c - 0x20) * CH + y, where 1 is foreground (R153); and every FONT of
R5 is the reading of some ROM of 95 * CH rows. The ROM as a list of rows of 320 bits is the model's choice (log entry
13). -/
def Obligations.EveryFontIsTheReadingOfSomeRom : Prop :=
  (∀ (p : Params) (c : Byte) (y x : Nat) (row : BitVec 320), 0x20 ≤ c.toNat → c.toNat ≤ 0x7E → y < ch p → x < cw p →
    p.rom[(c.toNat - 0x20) * ch p + y]? = some row → glyphBit p c y x = row.getLsbD (cw p - 1 - x)) ∧
  (∀ cs : CharColors, bitColor cs true = cs.fg ∧ bitColor cs false = cs.bg) ∧
  ∀ (p : Params) (font : Byte → Nat → Nat → Bool), ∃ rom, rom.length = 95 * ch p ∧
    ∀ (c : Byte) (y x : Nat), 0x20 ≤ c.toNat → c.toNat ≤ 0x7E → y < ch p → x < cw p →
      glyphBit { p with rom := rom } c y x = font c y x

/-! ### Cursor commands and the scroll (42_glyph_rom.md, 43_charbuffer.md) -/

/-- PUTC before the last column (R154, R168): the glyph's cell is drawn in the active colours, one write a pixel in the
order of R154, and the cursor moves one cell to the right. -/
def Obligations.PutcDrawsAndAdvances : Prop :=
  ∀ (s : State) (c : Byte) (k r : Nat), AtCell s k r → 0x20 ≤ c.toNat → c.toNat ≤ 0x7E →
    k + 1 < gridW s.params s.desc →
    ∃ dev, exec (.putc c) s = .next (doneAt s ((k + 1) * cw s.params) (r * ch s.params) dev) ∧
      AtCell (doneAt s ((k + 1) * cw s.params) (r * ch s.params) dev) (k + 1) r ∧
      GlyphDrawn s.params s.desc (activeColors s) c (k * cw s.params) (r * ch s.params) s.dev.mem dev.mem ∧
      dev.trace.reverse = s.dev.trace.reverse ++
        glyphWrites s.params s.desc (activeColors s) c (k * cw s.params) (r * ch s.params)

/-- PUTC in the last column of a row that is not the last (R168, R169): the glyph is drawn, in the order of R154, and the
cursor wraps to column 0 of the next row, with no scroll. -/
def Obligations.PutcWrapsToTheNextRow : Prop :=
  ∀ (s : State) (c : Byte) (k r : Nat), AtCell s k r → 0x20 ≤ c.toNat → c.toNat ≤ 0x7E →
    k + 1 = gridW s.params s.desc → r + 1 < gridH s.params s.desc →
    ∃ dev, exec (.putc c) s = .next (doneAt s 0 ((r + 1) * ch s.params) dev) ∧
      AtCell (doneAt s 0 ((r + 1) * ch s.params) dev) 0 (r + 1) ∧
      GlyphDrawn s.params s.desc (activeColors s) c (k * cw s.params) (r * ch s.params) s.dev.mem dev.mem ∧
      dev.trace.reverse = s.dev.trace.reverse ++
        glyphWrites s.params s.desc (activeColors s) c (k * cw s.params) (r * ch s.params)

/-- PUTC in the last cell of the grid (R168): the glyph is drawn, then the grid scrolls, each with its accesses in order,
and the cursor ends at column 0 of the last row. -/
def Obligations.PutcInTheLastCellScrolls : Prop :=
  ∀ (s : State) (c : Byte) (k r : Nat), AtCell s k r → 0x20 ≤ c.toNat → c.toNat ≤ 0x7E →
    k + 1 = gridW s.params s.desc → r + 1 = gridH s.params s.desc →
    ∃ dev mid, exec (.putc c) s = .next (doneAt s 0 (r * ch s.params) dev) ∧
      AtCell (doneAt s 0 (r * ch s.params) dev) 0 r ∧
      GlyphDrawn s.params s.desc (activeColors s) c (k * cw s.params) (r * ch s.params) s.dev.mem mid ∧
      Scrolled s.params s.desc (activeColors s).bg mid dev.mem ∧
      dev.trace.reverse = s.dev.trace.reverse ++
        glyphWrites s.params s.desc (activeColors s) c (k * cw s.params) (r * ch s.params) ++
        scrollTrace s.params s.desc (activeColors s).bg mid

/-- A PUTC of a code outside 0x20 to 0x7E is answered REJ_NOT_PRINTABLE: no glyph and no cursor movement (R75, R150). -/
def Obligations.UnprintableCodesAreRejected : Prop :=
  ∀ (s : State) (c : Byte), s.configured = true → (c.toNat < 0x20 ∨ 0x7E < c.toNat) →
    exec (.putc c) s = .next { s with responses := responseWord .rejNotPrintable 0#24 :: s.responses }

/-- GODOWN (R170): one row down in the same column with no access; from the last row a scroll, and column 0. -/
def Obligations.GodownMovesOrScrolls : Prop :=
  ∀ (s : State) (k r : Nat), AtCell s k r →
    (r + 1 < gridH s.params s.desc →
      exec .godown s = .next (doneAt s (k * cw s.params) ((r + 1) * ch s.params) s.dev) ∧
      AtCell (doneAt s (k * cw s.params) ((r + 1) * ch s.params) s.dev) k (r + 1)) ∧
    (r + 1 = gridH s.params s.desc →
      ∃ dev, exec .godown s = .next (doneAt s 0 (r * ch s.params) dev) ∧
        AtCell (doneAt s 0 (r * ch s.params) dev) 0 r ∧
        Scrolled s.params s.desc (activeColors s).bg s.dev.mem dev.mem)

/-- LINESTART (R171): column 0 of the same row; it never scrolls and accesses no memory. -/
def Obligations.LinestartReturnsToColumnZero : Prop :=
  ∀ (s : State) (k r : Nat), AtCell s k r →
    exec .linestart s = .next (doneAt s 0 (r * ch s.params) s.dev) ∧
      AtCell (doneAt s 0 (r * ch s.params) s.dev) 0 r

/-- NEWLINE (R172): column 0 of the next row with no access; from the last row one scroll, and column 0 of the last
row. -/
def Obligations.NewlineMovesOrScrolls : Prop :=
  ∀ (s : State) (k r : Nat), AtCell s k r →
    (r + 1 < gridH s.params s.desc →
      exec .newline s = .next (doneAt s 0 ((r + 1) * ch s.params) s.dev) ∧
      AtCell (doneAt s 0 ((r + 1) * ch s.params) s.dev) 0 (r + 1)) ∧
    (r + 1 = gridH s.params s.desc →
      ∃ dev, exec .newline s = .next (doneAt s 0 (r * ch s.params) dev) ∧
        AtCell (doneAt s 0 (r * ch s.params) dev) 0 r ∧
        Scrolled s.params s.desc (activeColors s).bg s.dev.mem dev.mem)

/-- The accesses of a scroll, in order (R163, R164, R165): rows ascending, then columns, then the cell's pixels, each
copy a read one cell below and then a write; then the clear of the last row. Said of each command that can scroll: a
GODOWN and a NEWLINE on the last row, and a PUTC in the last cell, whose glyph is written first (R154, R168). -/
def Obligations.ScrollAccessesAreInTheOrderOfTheRules : Prop :=
  ∀ (s t : State) (i : Instr) (k r : Nat) (glyph : List (Bool × Nat)), AtCell s k r → r + 1 = gridH s.params s.desc →
    (((i = .godown ∨ i = .newline) ∧ glyph = []) ∨
      ∃ c, i = .putc c ∧ 0x20 ≤ c.toNat ∧ c.toNat ≤ 0x7E ∧ k + 1 = gridW s.params s.desc ∧
        glyph = (List.range (ch s.params)).flatMap fun y => (List.range (cw s.params)).map fun x =>
          (true, pixAddr s.desc (k * cw s.params + x) (r * ch s.params + y))) →
    exec i s = .next t →
    t.dev.trace.reverse.map (fun acc => (acc.isWrite, acc.addr)) =
      s.dev.trace.reverse.map (fun acc => (acc.isWrite, acc.addr)) ++ glyph ++
      ((List.range (gridH s.params s.desc - 1)).flatMap fun row => (List.range (gridW s.params s.desc)).flatMap fun col =>
        (List.range (ch s.params)).flatMap fun y => (List.range (cw s.params)).flatMap fun x =>
          [(false, pixAddr s.desc (col * cw s.params + x) ((row + 1) * ch s.params + y)),
           (true, pixAddr s.desc (col * cw s.params + x) (row * ch s.params + y))]) ++
      (List.range (gridW s.params s.desc)).flatMap fun col =>
        (List.range (ch s.params)).flatMap fun y => (List.range (cw s.params)).map fun x =>
          (true, pixAddr s.desc (col * cw s.params + x) ((gridH s.params s.desc - 1) * ch s.params + y))

/-- Every copy of the scroll writes the raw word its own read gave, which is the word one cell below in the memory `m` that
the scroll starts from, and the last row's writes are all the active background: so a scroll keeps the reserved byte of
each word (R106, R122, R163). Said of each command that can scroll: for a GODOWN and a NEWLINE on the last row `m` is
memory before the command; for a PUTC in the last cell it is memory with the glyph drawn (R168). -/
def Obligations.ScrollCopiesRawWords : Prop :=
  ∀ (s t : State) (i : Instr) (k r : Nat) (glyph : List PixelWord) (m : Memory), AtCell s k r →
    r + 1 = gridH s.params s.desc →
    (((i = .godown ∨ i = .newline) ∧ glyph = [] ∧ m = s.dev.mem) ∨
      ∃ c, i = .putc c ∧ 0x20 ≤ c.toNat ∧ c.toNat ≤ 0x7E ∧ k + 1 = gridW s.params s.desc ∧
        (glyph = (List.range (ch s.params)).flatMap fun y => (List.range (cw s.params)).map fun x =>
          encodePixel s.desc.fmt (bitColor (activeColors s) (glyphBit s.params c y x))) ∧
        GlyphDrawn s.params s.desc (activeColors s) c (k * cw s.params) (r * ch s.params) s.dev.mem m) →
    exec i s = .next t →
    t.dev.trace.reverse.map (fun acc => acc.value) = s.dev.trace.reverse.map (fun acc => acc.value) ++ glyph ++
      ((List.range (gridH s.params s.desc - 1)).flatMap fun row => (List.range (gridW s.params s.desc)).flatMap fun col =>
        (List.range (ch s.params)).flatMap fun y => (List.range (cw s.params)).flatMap fun x =>
          List.replicate 2 (Memory.read32 m
            (pixAddr s.desc (col * cw s.params + x) ((row + 1) * ch s.params + y)))) ++
      List.replicate (gridW s.params s.desc * cw s.params * ch s.params) (encodePixel s.desc.fmt (activeColors s).bg)

/-- Printing W characters from column 0 (R174): on a row that is not the last they stand in columns 0 to W-1 of that
row and the cursor ends at column 0 of the next; from the last row the line moves up one row and the cursor ends at
column 0 of the last row. -/
def Obligations.AFullLineOfCharactersWraps : Prop :=
  ∀ (s : State) (r : Nat) (cs : List Byte), AtCell s 0 r → cs.length = gridW s.params s.desc →
    (∀ c ∈ cs, 0x20 ≤ c.toNat ∧ c.toNat ≤ 0x7E) →
    ∃ t, putAll cs s = .next t ∧
      (r + 1 < gridH s.params s.desc → AtCell t 0 (r + 1) ∧
        ∀ k x y, k < gridW s.params s.desc → x < cw s.params → y < ch s.params →
          holdsWord t.dev.mem (pixAddr s.desc (k * cw s.params + x) (r * ch s.params + y))
            (encodePixel s.desc.fmt (bitColor (activeColors s) (glyphBit s.params (cs.getD k 0#8) y x)))) ∧
      (r + 1 = gridH s.params s.desc → AtCell t 0 r ∧
        ∀ k x y, 1 ≤ r → k < gridW s.params s.desc → x < cw s.params → y < ch s.params →
          holdsWord t.dev.mem (pixAddr s.desc (k * cw s.params + x) ((r - 1) * ch s.params + y))
            (encodePixel s.desc.fmt (bitColor (activeColors s) (glyphBit s.params (cs.getD k 0#8) y x))))

/-! ### MODE, CONFIGURED and the descriptor (44_console_mode.md, 10_state.md) -/

/-- The active colours are the Normal palette in Normal mode and the alert palette in Panic mode (R28); SETPANIC (R200)
sets MODE to PANIC, so that the alert palette is the active one, with no memory access and every other register
unchanged, in either mode. -/
def Obligations.SetpanicSelectsTheAlertPalette : Prop :=
  ∀ s : State, (s.mode = .normal → activeColors s = s.params.normal) ∧
    (s.mode = .panic → activeColors s = s.params.panic) ∧
    (s.configured = true →
      exec .setpanic s = .next { s with mode := .panic, responses := responseWord .ok 0#24 :: s.responses })

/-- Only reset leaves Panic mode or clears CONFIGURED, and only an accepted INIT writes the descriptor: a configured
block stays configured, with its descriptor, and in Panic mode once there, through every input but a reset
(R21, R22, R201). -/
def Obligations.OnlyResetUndoesConfigurationOrPanic : Prop :=
  ∀ s t : State, step s = .next t → s.configured = true →
    (∀ rest, s.input ≠ .reset :: rest) → (∀ w n rest, s.input ≠ .wordThenReset w n :: rest) →
    t.configured = true ∧ t.desc = s.desc ∧ (s.mode = .panic → t.mode = .panic) ∧
      (t.mode = s.mode ∨ t.mode = .panic)

/-- MODE is a colour selection and no privilege (R240): a command that completes in one mode completes in any, with the
same answers and the same cursor. -/
def Obligations.ModeDoesNotChangeTheAnswers : Prop :=
  ∀ (s t : State) (i : Instr) (m : Mode), exec i s = .next t →
    ∃ t', exec i { s with mode := m } = .next t' ∧ t'.responses = t.responses ∧ t'.curH = t.curH ∧ t'.curV = t.curV ∧
      t'.configured = t.configured

/-- No step changes the cell size, the glyph ROM or the palettes (R29, R30, R264). -/
def Obligations.ConstantsNeverChange : Prop :=
  ∀ s t : State, step s = .next t → t.params = s.params

/-! ### Rejections and responses (60_exceptions.md) -/

/-- A command other than INIT on an unconfigured block is answered REJ_NOT_CONFIGURED and does nothing else
(R233, R261). -/
def Obligations.OnlyInitRunsBeforeInit : Prop :=
  ∀ (s : State) (i : Instr), s.configured = false → (∀ d, i ≠ .init d) →
    exec i s = .next { s with responses := responseWord .rejNotConfigured 0#24 :: s.responses }

/-- A framed command that is answered with a rejection code changes no register and makes no memory access; PENDING is
empty, and the response word is its one result (R232). -/
def Obligations.ARejectedCommandHasNoEffect : Prop :=
  ∀ (s t : State) (w : Word64) (rest : List Event) (resp : Word64), s.input = .word w :: rest → step s = .next t →
    t.responses = resp :: s.responses → 0x80 ≤ (resp.extractLsb' 56 8).toNat →
    t = { s with input := rest, pending := none, responses := resp :: s.responses }

/-- A response word: STATUS in bits 63..56, zero in 55..24, DATA in 23..0 (R84); and the eight status codes (R231). -/
def Obligations.ResponseWordLayout : Prop :=
  (∀ (st : Status) (data : Rgb24), (responseWord st data).extractLsb' 56 8 = st.code ∧
    (responseWord st data).extractLsb' 24 32 = 0#32 ∧ (responseWord st data).extractLsb' 0 24 = data) ∧
  Status.ok.code = 0x00#8 ∧ Status.absent.code = 0x01#8 ∧ Status.rejOpcode.code = 0x80#8 ∧
    Status.rejReserved.code = 0x81#8 ∧ Status.rejNotConfigured.code = 0x82#8 ∧
    Status.rejAlreadyConfigured.code = 0x83#8 ∧ Status.rejBadDescriptor.code = 0x84#8 ∧
    Status.rejNotPrintable.code = 0x85#8

/-- Each framed command is answered by exactly one response word, with a status that its opcode can have (R84, R85);
its DATA is 0 but for an OK READPX. -/
def Obligations.EachCommandAnswersOnceWithItsStatuses : Prop :=
  ∀ (s t : State) (w0 w1 : Word64), runFramed w0 w1 s = .next t →
    ∃ st data, t.responses = responseWord st data :: s.responses ∧
      (data ≠ 0#24 → st = .ok ∧ w0.extractLsb' 56 8 = 0x04#8) ∧
      (match (w0.extractLsb' 56 8).toNat with
       | 0x01 => st ∈ [Status.ok, .rejReserved, .rejAlreadyConfigured, .rejBadDescriptor]
       | 0x02 => st ∈ [Status.ok, .rejReserved, .rejNotConfigured]
       | 0x03 => st ∈ [Status.ok, .rejNotConfigured]
       | 0x04 => st ∈ [Status.ok, .absent, .rejReserved, .rejNotConfigured]
       | 0x05 => st ∈ [Status.ok, .rejReserved, .rejNotConfigured, .rejNotPrintable]
       | 0x06 => st ∈ [Status.ok, .rejReserved, .rejNotConfigured]
       | 0x07 => st ∈ [Status.ok, .rejReserved, .rejNotConfigured]
       | 0x08 => st ∈ [Status.ok, .rejReserved, .rejNotConfigured]
       | 0x09 => st ∈ [Status.ok, .rejReserved, .rejNotConfigured]
       | _ => st = .rejOpcode)

/-- A command of a configured block with good operands completes; nothing but the reasons of R233 rejects it
(R246): SETPANIC and printable PUTCs cannot fail. -/
def Obligations.AGoodCommandIsNeverRejected : Prop :=
  ∀ (s : State) (i : Instr) (k r : Nat), AtCell s k r → i.wellFormed = true → (∀ d, i ≠ .init d) →
    ∃ t st data, exec i s = .next t ∧ t.responses = responseWord st data :: s.responses ∧ (st = .ok ∨ st = .absent)

/-! ### Memory accesses (20_memory.md, 70_reset_and_hazards.md) -/

/-- Every access of a command is at the address of a visible pixel of the descriptor in force after it (R69). -/
def Obligations.EveryAccessIsAtAVisiblePixel : Prop :=
  ∀ (s t : State) (i : Instr), exec i s = .next t →
    ∃ new, t.dev.trace = new ++ s.dev.trace ∧
      ∀ acc ∈ new, ∃ h v, visible t.desc h v ∧ acc.addr = pixAddr t.desc h v

/-- The exact number of reads and writes of each accepted command (R270). -/
def Obligations.AccessCountsOfEachCommand : Prop :=
  (∀ (s t : State) (i : Instr) (k r : Nat), AtCell s k r → i.wellFormed = true → (∀ d, i ≠ .init d) →
    exec i s = .next t →
    ∃ new, t.dev.trace = new ++ s.dev.trace ∧
      (scrollsAt i s.params s.desc k r →
        (new.filter fun acc => !acc.isWrite).length =
          (gridH s.params s.desc - 1) * gridW s.params s.desc * cw s.params * ch s.params ∧
        (new.filter fun acc => acc.isWrite).length = ownWrites i s.params s.desc +
          gridH s.params s.desc * gridW s.params s.desc * cw s.params * ch s.params) ∧
      (¬ scrollsAt i s.params s.desc k r →
        (new.filter fun acc => !acc.isWrite).length = ownReads i s.desc ∧
        (new.filter fun acc => acc.isWrite).length = ownWrites i s.params s.desc)) ∧
  (∀ (s t : State) (d : Descriptor), s.configured = false → descriptorOk d → exec (.init d) s = .next t →
    ∃ new, t.dev.trace = new ++ s.dev.trace ∧ (new.filter fun acc => !acc.isWrite) = [] ∧
      new.length = ownWrites (.init d) s.params s.desc)

/-- The copy's precondition never fails, in any state (R247, R161): no command and no step raises the internal
fault. -/
def Obligations.TheInternalFaultIsUnreachable : Prop :=
  (∀ (s : State) (i : Instr), exec i s ≠ .fault .copyOutOfGrid) ∧ ∀ s : State, step s ≠ .fault .copyOutOfGrid

/-! ### Reset (70_reset_and_hazards.md) -/

/-- The reset input (R260): the block's registers take their reset values, and device memory, the constants and what
the ports have seen stay. The zero descriptor is the model's choice where the rule says "no value" (log entry 3). -/
def Obligations.ResetInputResetsTheRegisters : Prop :=
  (∀ (s : State) (rest : List Event), s.input = .reset :: rest →
    step s = .next
      { s with
        configured := false
        desc := { fmt := .rgb, stride := 0#16, hres := 0#16, vres := 0#16, base := 0#64 }
        curH := 0#16
        curV := 0#16
        mode := .normal
        pending := none
        input := rest }) ∧
  State.reset.configured = false ∧ State.reset.mode = .normal ∧ State.reset.curH = 0#16 ∧ State.reset.curV = 0#16 ∧
    State.reset.pending = none

/-- Reset while a command runs (R262): the registers are reset and no response is sent. Memory holds a prefix of the
command's writes, and every prefix is the result of some draw (log entry 6 says what the draw `n` counts). -/
def Obligations.ResetDuringACommandLeavesAPrefixOfItsWrites : Prop :=
  ∀ (s u : State) (w : Word64) (rest : List Event) (new : List Access), s.input = .word w :: rest → step s = .next u →
    u.dev.trace = new ++ s.dev.trace →
    (∀ n, ∃ t k, step { s with input := .wordThenReset w n :: rest } = .next t ∧
      t.configured = false ∧ t.pending = none ∧ t.mode = .normal ∧ t.curH = 0#16 ∧ t.curV = 0#16 ∧ t.input = rest ∧
      t.responses = s.responses ∧ t.params = s.params ∧
      t.dev.mem = ((new.reverse.filter Access.isWrite).take k).foldl
        (fun m acc => Memory.write32 m acc.addr acc.value) s.dev.mem) ∧
    (∀ k, k ≤ (new.filter Access.isWrite).length → ∃ n t, step { s with input := .wordThenReset w n :: rest } = .next t ∧
      t.dev.mem = ((new.reverse.filter Access.isWrite).take k).foldl
        (fun m acc => Memory.write32 m acc.addr acc.value) s.dev.mem)

/-- The values the descriptor registers hold before INIT are never read (R20, R36): they change nothing but themselves.
So the model's choice of zero (log entry 3) shows nowhere. -/
def Obligations.UnsetDescriptorRegistersAreNeverRead : Prop :=
  ∀ (s t : State) (g : Descriptor) (i : Instr), s.configured = false → exec i s = .next t →
    exec i { s with desc := g } = .next (if t.configured then t else { t with desc := g })

/-! ### Invariants -/

/-- The state right after reset is safe. `Safe` has the registers before INIT at the values of State.reset, among them the
zeros of the descriptor registers, which are the model's choice (log entry 3; the spec says "no value", R36), and the
empty memory list, the model's form of memory (log entry 2). -/
def Obligations.ResetStateIsSafe : Prop := Safe State.reset

/-- Every step from a safe state answers a next state: the block never stops (R66, R88, R247, R271). With no input left a
step answers the same state, which is the model's choice (log entry 10). -/
def Obligations.ASafeStateNeverStops : Prop :=
  ∀ s : State, Safe s → ∃ t, step s = .next t

/-- Every step keeps the invariants: the descriptor checks (R22), the cursor in the grid (R27), the screen written with
reserved bytes 0 (R67, R107), memory made by the history of aligned accesses, each read giving the last write (R56, R59).
Three clauses rest on the model's choices: memory's canonical form (log entry 2), the zeros of the descriptor registers
before INIT (log entry 3), and the idle step (log entry 10). -/
def Obligations.StepsKeepStatesSafe : Prop :=
  ∀ s t : State, Safe s → step s = .next t → Safe t

/-- The cursor stays on a cell of the grid through every command (R26, R27), whatever memory holds. -/
def Obligations.CommandsKeepTheCursorInTheGrid : Prop :=
  (∀ (s t : State) (i : Instr) (k r : Nat), AtCell s k r → exec i s = .next t → ∃ k' r', AtCell t k' r') ∧
  (∀ (s t : State) (d : Descriptor), s.configured = false → exec (.init d) s = .next t → t.configured = true →
    AtCell t 0 0)

/-- The history of the memory port only grows (R58); and memory is canonical after every step that starts from canonical
memory, whatever the registers hold. The canonical form is the model's choice (log entry 2), no rule of the spec. -/
def Obligations.StepsKeepMemoryCanonical : Prop :=
  ∀ s t : State, step s = .next t → Memory.wf s.dev.mem →
    Memory.wf t.dev.mem ∧ ∃ new, t.dev.trace = new ++ s.dev.trace

/-! ### The host (45_host_console.md) -/

/-- Filtering byte by byte gives the same commands as rejecting whole code points (R214, R216): a scalar value other
than newline, return and tab is one PUTC where it is printable ASCII and nothing elsewhere. -/
def Obligations.ByteFilterEqualsCodepointFilter : Prop :=
  ∀ c : Char, c.toNat ≠ 0x0A → c.toNat ≠ 0x0D → c.toNat ≠ 0x09 →
    charCommands c = if 0x20 ≤ c.toNat ∧ c.toNat ≤ 0x7E then [.putc (BitVec.ofNat 8 c.toNat)] else []

/-- Newline, return and tab (R211, R212, R213), and a tab as four spaces (95_test_vectors.md S5). -/
def Obligations.ControlCharactersAreTheirCommands : Prop :=
  charCommands '\n' = [.newline] ∧ charCommands '\r' = [.linestart] ∧
    charCommands '\t' = [.putc 0x20#8, .putc 0x20#8, .putc 0x20#8, .putc 0x20#8] ∧
    charCommands '\t' = printCommands [' ', ' ', ' ', ' ']

/-- Print sends no command that the block would reject for its operands, and no INIT (R211 to R214). -/
def Obligations.PrintSendsOnlyGoodCommands : Prop :=
  ∀ (text : List Char) (i : Instr), i ∈ printCommands text → i.wellFormed = true ∧ ∀ d, i ≠ .init d

/-- The host's steps: a call becomes the words of its commands (R87, R210, R217 to R219). That the words go before the
inputs that follow the call, a print one scalar value at a time, and that the step does nothing else, is the model's form
of a run (log entry 5). What a fault report leaves of the inputs that follow is the model's reading of R223 (log entry 7,
DEDUCED): nothing up to the next reset, and all from it on; a word that stood with a reset goes and its reset stays. -/
def Obligations.HostCallsBecomeCommandWords : Prop :=
  (∀ (s : State) (rest : List Event),
    (∀ d, s.input = .call (.construct d) :: rest → step s = .next { s with input := commandEvents [.init d] ++ rest }) ∧
    (s.input = .call (.print []) :: rest → step s = .next { s with input := rest }) ∧
    (∀ c text, s.input = .call (.print (c :: text)) :: rest →
      step s = .next { s with input := commandEvents (charCommands c) ++ .call (.print text) :: rest }) ∧
    (s.input = .call .tab :: rest →
      step s = .next { s with input := commandEvents (List.replicate 4 (.putc 0x20#8)) ++ rest }) ∧
    (s.input = .call .enterPanic :: rest → step s = .next { s with input := commandEvents [.setpanic] ++ rest }) ∧
    (∀ text, s.input = .call (.faultReport text) :: rest →
      step s = .next { s with input := commandEvents [.setpanic] ++ .call (.print text) :: idleUntilReset rest })) ∧
  (∀ dropped : List Event, (∀ e ∈ dropped, (∃ w, e = .word w) ∨ ∃ c, e = .call c) →
    idleUntilReset dropped = [] ∧ ∀ later, idleUntilReset (dropped ++ .reset :: later) = .reset :: later ∧
      ∀ w n, idleUntilReset (dropped ++ .wordThenReset w n :: later) = .reset :: later)

/-- A line of assembly is the words of its command (R86): the examples of 95_test_vectors.md. -/
def Obligations.AssemblyLinesAreTheirWords : Prop :=
  assembleLine ['F', 'I', 'L', 'L', ' ', '#', '1', '0', '2', '0', '3', '0'] = some [.word 0x0200000000102030#64] ∧
  assembleLine ['P', 'U', 'T', 'C', ' ', '\'', 'A', '\'', ' ', ';', ' ', 'x'] = some [.word 0x0500000000000041#64] ∧
  assembleLine ['P', 'U', 'T', 'C', ' ', '0', 'x', '1', 'F'] = some [.word 0x050000000000001F#64] ∧
  assembleLine ['R', 'E', 'A', 'D', 'P', 'X', ' ', '6', '4', '0', ',', ' ', '0'] = some [.word 0x0402800000000000#64]
end

