-- ==== Sys2Proof/Laws/Memory.lean ====
section
/-! SUPPORT. The laws of device memory: a read after a write, the canonical form, and words as four bytes. -/

namespace Sys2Proof.Machine

/-- Byte `k` of a pixel word in the view of R11. -/
def byteOf (w : PixelWord) (k : Nat) : Byte := w.extractLsb' (8 * k) 8

@[simp] theorem Memory.read?_nil (a : Nat) : Memory.read? [] a = none := rfl

theorem Memory.read?_cons (c : Host.Cell) (m : Memory) (a : Nat) :
    Memory.read? (c :: m) a = if c.1 = a then some c.2 else Memory.read? m a := rfl

/-- A read after a write: the written address holds the byte, every other address is unchanged. -/
theorem Memory.read?_write (m : Memory) (a : Nat) (b : Byte) (x : Nat) :
    Memory.read? (Memory.write m a b) x = if x = a then some b else Memory.read? m x := by
  induction m with
  | nil => simp only [Memory.write, Memory.read?_cons, Memory.read?_nil, eq_comm]
  | cons c m ih =>
    obtain ⟨k, e⟩ := c
    simp only [Memory.write]
    split
    · simp only [Memory.read?_cons, eq_comm]
    · split
      · subst k; simp only [Memory.read?_cons, eq_comm]; split <;> simp_all
      · simp only [Memory.read?_cons, ih]
        by_cases hk : k = x
        · subst hk; rw [if_pos rfl, if_pos rfl, if_neg (by omega)]
        · simp [hk]

theorem Memory.mem_write {m : Memory} {a : Nat} {b : Byte} {c : Host.Cell} (h : c ∈ Memory.write m a b) :
    c = (a, b) ∨ c ∈ m := by
  induction m with
  | nil => simpa [Memory.write] using h
  | cons e m ih =>
    obtain ⟨k, f⟩ := e
    simp only [Memory.write] at h
    split at h
    · simpa using h
    · split at h
      · simp only [List.mem_cons] at h ⊢; tauto
      · simp only [List.mem_cons] at h ⊢
        rcases h with h | h
        · exact .inr (.inl h)
        · rcases ih h with h | h <;> tauto

/-- A write keeps the canonical form. -/
theorem Memory.wf_write {m : Memory} (hm : Memory.wf m) {a : Nat} (ha : a < 2 ^ 64) (b : Byte) :
    Memory.wf (Memory.write m a b) := by
  refine ⟨?_, fun c hc => ?_⟩
  · obtain ⟨hp, -⟩ := hm
    induction m with
    | nil => simp [Memory.write]
    | cons e m ih =>
      obtain ⟨k, f⟩ := e
      have hp' := List.pairwise_cons.1 hp
      simp only [Memory.write]
      split
      · rename_i hlt
        refine List.pairwise_cons.2 ⟨fun c hc => ?_, hp⟩
        rcases List.mem_cons.1 hc with rfl | hc
        · exact hlt
        · exact Nat.lt_trans hlt (hp'.1 c hc)
      · split
        · rename_i he; subst he; exact List.pairwise_cons.2 ⟨hp'.1, hp'.2⟩
        · refine List.pairwise_cons.2 ⟨fun c hc => ?_, ih hp'.2⟩
          rcases Memory.mem_write hc with rfl | hc
          · show k < a; omega
          · exact hp'.1 c hc
  · rcases Memory.mem_write hc with rfl | hc
    · exact ha
    · exact hm.2 c hc

theorem Memory.read?_of_lt {m : Memory} {a : Nat} (h : ∀ c ∈ m, a < c.1) : Memory.read? m a = none := by
  induction m with
  | nil => rfl
  | cons c m ih =>
    have hc := h c List.mem_cons_self
    rw [Memory.read?_cons, if_neg (by omega)]
    exact ih fun c' h' => h c' (List.mem_cons_of_mem _ h')

/-- The form is canonical: memories with the same written bytes are the same data. -/
theorem Memory.eq_of_read? {m m' : Memory} (hm : Memory.wf m) (hm' : Memory.wf m')
    (h : ∀ a, Memory.read? m a = Memory.read? m' a) : m = m' := by
  obtain ⟨hp, -⟩ := hm
  obtain ⟨hp', -⟩ := hm'
  induction m generalizing m' with
  | nil =>
    cases m' with
    | nil => rfl
    | cons c m' => have := h c.1; simp [Memory.read?_cons] at this
  | cons c m ih =>
    cases m' with
    | nil => have := h c.1; simp [Memory.read?_cons] at this
    | cons c' m' =>
      obtain ⟨h1, h2⟩ := List.pairwise_cons.1 hp
      obtain ⟨h1', h2'⟩ := List.pairwise_cons.1 hp'
      have e1 : c.1 = c'.1 := by
        rcases Nat.lt_trichotomy c.1 c'.1 with hl | he | hl
        · have := h c.1
          rw [Memory.read?_cons, if_pos rfl, Memory.read?_cons, if_neg (by omega),
            Memory.read?_of_lt fun x hx => Nat.lt_trans hl (h1' x hx)] at this
          exact absurd this (by simp)
        · exact he
        · have := h c'.1
          rw [Memory.read?_cons, if_neg (by omega), Memory.read?_cons, if_pos rfl,
            Memory.read?_of_lt fun x hx => Nat.lt_trans hl (h1 x hx)] at this
          exact absurd this.symm (by simp)
      have e2 : c.2 = c'.2 := by
        have := h c.1
        rw [Memory.read?_cons, if_pos rfl, Memory.read?_cons, if_pos e1.symm] at this
        exact Option.some.inj this
      have e : c = c' := Prod.ext e1 e2
      subst e
      refine congrArg _ (ih (fun a => ?_) h2 h2')
      by_cases ha : c.1 = a
      · subst ha; rw [Memory.read?_of_lt h1, Memory.read?_of_lt h1']
      · have := h a
        rwa [Memory.read?_cons, if_neg ha, Memory.read?_cons, if_neg ha] at this

/-- A word write: its four bytes hold the word, lowest address in bits 7..0, and every other byte is unchanged. -/
theorem Memory.read?_write32 (m : Memory) (a : Nat) (w : PixelWord) (x : Nat) :
    Memory.read? (Memory.write32 m a w) x =
      if a ≤ x ∧ x < a + 4 then some (byteOf w (x - a)) else Memory.read? m x := by
  simp only [Memory.write32, Memory.read?_write]
  by_cases h3 : x = a + 3
  · subst h3; simp [byteOf]
  by_cases h2 : x = a + 2
  · subst h2; simp [byteOf]
  by_cases h1 : x = a + 1
  · subst h1; simp [byteOf]
  by_cases h0 : x = a
  · subst h0; simp [byteOf]
  · simp [h0, h1, h2, h3]; intro; omega

theorem Memory.wf_write32 {m : Memory} (hm : Memory.wf m) {a : Nat} (ha : inSpace a) (w : PixelWord) :
    Memory.wf (Memory.write32 m a w) := by
  have : a + 4 ≤ 2 ^ 64 := ha
  exact Memory.wf_write (Memory.wf_write (Memory.wf_write (Memory.wf_write hm (by omega) _) (by omega) _)
    (by omega) _) (by omega) _

theorem Memory.read_write32 (m : Memory) (a : Nat) (w : PixelWord) (x : Nat) :
    Memory.read (Memory.write32 m a w) x = if a ≤ x ∧ x < a + 4 then byteOf w (x - a) else Memory.read m x := by
  simp only [Memory.read, Memory.read?_write32]; split <;> rfl

theorem byteOf_append (w : PixelWord) : byteOf w 3 ++ byteOf w 2 ++ byteOf w 1 ++ byteOf w 0 = w := by
  simp only [byteOf]
  apply BitVec.eq_of_getLsbD_eq
  intro i hi
  simp only [BitVec.getLsbD_append, BitVec.getLsbD_extractLsb']
  repeat' split
  all_goals first | omega | (rw [decide_eq_true (by omega), Bool.true_and]; congr 1; omega)

theorem byteOf_read32 (m : Memory) (a k : Nat) (hk : k < 4) : byteOf (Memory.read32 m a) k = Memory.read m (a + k) := by
  have : k = 0 ∨ k = 1 ∨ k = 2 ∨ k = 3 := by omega
  rcases this with rfl | rfl | rfl | rfl <;>
  · simp only [byteOf, Memory.read32]
    ext i hi
    simp only [BitVec.getElem_extractLsb', BitVec.getLsbD_append, Nat.add_zero]
    repeat' split
    all_goals first | omega | (rw [BitVec.getLsbD_eq_getElem (by omega)]; congr 1; omega)

/-- A word read after a word write to the same address gives the word. -/
theorem Memory.read32_write32_same (m : Memory) (a : Nat) (w : PixelWord) :
    Memory.read32 (Memory.write32 m a w) a = w := by
  simp [Memory.read32, Memory.read_write32, byteOf_append]

/-- The word at an address is made of its four bytes. -/
theorem Memory.read32_congr {m m' : Memory} {a : Nat} (h : ∀ x, a ≤ x → x < a + 4 → Memory.read m x = Memory.read m' x) :
    Memory.read32 m a = Memory.read32 m' a := by
  simp only [Memory.read32]
  rw [h a (by omega) (by omega), h (a + 1) (by omega) (by omega), h (a + 2) (by omega) (by omega),
    h (a + 3) (by omega) (by omega)]

/-- A word whose four bytes have been written reads as those bytes. -/
theorem Memory.read32_of_bytes {m : Memory} {a : Nat} {w : PixelWord}
    (h : ∀ k, k < 4 → Memory.read? m (a + k) = some (byteOf w k)) : Memory.read32 m a = w := by
  have e : ∀ k, k < 4 → Memory.read m (a + k) = byteOf w k := fun k hk => by simp [Memory.read, h k hk]
  have e0 := e 0 (by omega)
  simp only [Nat.add_zero] at e0
  rw [Memory.read32, e 3 (by omega), e 2 (by omega), e 1 (by omega), e0, byteOf_append]

end Sys2Proof.Machine
end

