-- ==== Sys2Proof/Laws/Device.lean ====
section
/-! SUPPORT. What the memory port's operations do, said as the list of accesses they make: an operation that completes
takes the device to `accs.foldl replayAccess d`. The trace, the counts and the contents of memory all follow from
that list. -/

namespace Sys2Proof.Machine

/-- An access that stores to the byte at `x`. -/
def stores (x : Nat) : Access → Prop
  | .read _ _ => False
  | .write a _ => a ≤ x ∧ x < a + 4

theorem memWrite_eq {a : Nat} (ha : inSpace a) (w : PixelWord) (d : Device) :
    memWrite a w d = .ok (replayAccess d (.write a w)) := if_pos ha

theorem memRead_eq {a : Nat} (ha : inSpace a) (d : Device) :
    memRead a d = .ok (Memory.read32 d.mem a, replayAccess d (.read a (Memory.read32 d.mem a))) := if_pos ha

/-- All a write that completes can do. -/
theorem memWrite_eq_ok {a : Nat} {w : PixelWord} {d d' : Device} :
    memWrite a w d = .ok d' ↔ inSpace a ∧ d' = replayAccess d (.write a w) := by
  unfold memWrite; split
  · simp_all [replayAccess, eq_comm]
  · simp_all

/-- All a read that completes can do. -/
theorem memRead_eq_ok {a : Nat} {w : PixelWord} {d d' : Device} :
    memRead a d = .ok (w, d') ↔
      inSpace a ∧ w = Memory.read32 d.mem a ∧ d' = replayAccess d (.read a (Memory.read32 d.mem a)) := by
  unfold memRead; split
  · simp_all [replayAccess, eq_comm]
  · simp_all

@[simp] theorem replayAccess_read_mem (d : Device) (a : Nat) (w : PixelWord) :
    (replayAccess d (.read a w)).mem = d.mem := rfl
@[simp] theorem replayAccess_write_mem (d : Device) (a : Nat) (w : PixelWord) :
    (replayAccess d (.write a w)).mem = Memory.write32 d.mem a w := rfl
@[simp] theorem replayAccess_trace (d : Device) (acc : Access) :
    (replayAccess d acc).trace = acc :: d.trace := by cases acc <;> rfl

/-- The history grows by the accesses, the newest first. -/
theorem replay_trace (accs : List Access) (d : Device) :
    (accs.foldl replayAccess d).trace = accs.reverse ++ d.trace := by
  induction accs generalizing d with
  | nil => rfl
  | cons acc accs ih => simp [ih]

/-- The accesses by which a device is ahead are those it made. -/
theorem accessesSince_replay (accs : List Access) (d : Device) :
    accessesSince d (accs.foldl replayAccess d) = accs := by
  simp [accessesSince, replay_trace]

/-- A byte no access stores to is unchanged. -/
theorem read?_replay_of_not_stores {accs : List Access} {x : Nat} (h : ∀ acc ∈ accs, ¬ stores x acc) (d : Device) :
    Memory.read? (accs.foldl replayAccess d).mem x = Memory.read? d.mem x := by
  induction accs generalizing d with
  | nil => rfl
  | cons acc accs ih =>
    rw [List.foldl_cons, ih fun a ha => h a (List.mem_cons_of_mem _ ha)]
    have hacc := h acc List.mem_cons_self
    cases acc with
    | read a w => rfl
    | write a w => rw [replayAccess_write_mem, Memory.read?_write32, if_neg (show ¬ (a ≤ x ∧ x < a + 4) from hacc)]

/-- A byte holds `b` after some accesses, where every access that stores to it stores `b` and it holds `b` before them
or one of them stores to it. -/
theorem read?_replay_of_agree {accs : List Access} {x : Nat} {b : Byte} {d : Device}
    (hb : ∀ a w, Access.write a w ∈ accs → a ≤ x → x < a + 4 → byteOf w (x - a) = b)
    (h : Memory.read? d.mem x = some b ∨ ∃ acc ∈ accs, stores x acc) :
    Memory.read? (accs.foldl replayAccess d).mem x = some b := by
  induction accs generalizing d with
  | nil => rcases h with h | ⟨acc, ha, -⟩; exacts [h, absurd ha List.not_mem_nil]
  | cons acc accs ih =>
    rw [List.foldl_cons]
    refine ih (fun a w hm => hb a w (List.mem_cons_of_mem _ hm)) ?_
    by_cases hs : stores x acc
    · left
      cases acc with
      | read a w => exact absurd hs (by simp [stores])
      | write a w => rw [replayAccess_write_mem, Memory.read?_write32, if_pos (show a ≤ x ∧ x < a + 4 from hs), hb a w List.mem_cons_self hs.1 hs.2]
    · rcases h with h | ⟨acc', hm, hs'⟩
      · left
        cases acc with
        | read a w => exact h
        | write a w => rw [replayAccess_write_mem, Memory.read?_write32, if_neg (show ¬ (a ≤ x ∧ x < a + 4) from hs), h]
      · rcases List.mem_cons.1 hm with rfl | hm
        · exact absurd hs' hs
        · exact .inr ⟨acc', hm, hs'⟩

/-! ### The counted loop -/

/-- The loop's invariant rule: a body that completes and advances the invariant gives a loop that completes. -/
theorem forUp_rule {n : Nat} {body : Nat → Device → Except Fault Device} {d : Device} (I : Nat → Device → Prop)
    (h0 : I 0 d) (hs : ∀ k d', k < n → I k d' → ∃ d'', body k d' = .ok d'' ∧ I (k + 1) d'') :
    ∃ d', forUp n body d = .ok d' ∧ I n d' := by
  induction n with
  | zero => exact ⟨d, rfl, h0⟩
  | succ n ih =>
    obtain ⟨d1, e1, i1⟩ := ih fun k d' hk => hs k d' (by omega)
    obtain ⟨d2, e2, i2⟩ := hs n d1 (by omega) i1
    exact ⟨d2, by rw [forUp, e1]; exact e2, i2⟩

/-- What each round keeps, a loop that completes keeps. -/
theorem forUp_keeps {n : Nat} {body : Nat → Device → Except Fault Device} {d d' : Device} (P : Device → Prop)
    (hs : ∀ k d1 d2, k < n → P d1 → body k d1 = .ok d2 → P d2) (h : forUp n body d = .ok d') (h0 : P d) : P d' := by
  induction n generalizing d' with
  | zero => cases h; exact h0
  | succ n ih =>
    rw [forUp] at h
    cases e : forUp n body d with
    | error f => rw [e] at h; exact absurd h (by simp)
    | ok d1 => rw [e] at h; exact hs n d1 d' (by omega) (ih (fun k d1 d2 hk => hs k d1 d2 (by omega)) e) h

/-- A loop whose rounds make given accesses makes them all, in order. -/
theorem forUp_replay {n : Nat} {body : Nat → Device → Except Fault Device} {d : Device} (accs : Nat → List Access)
    (h : ∀ k, k < n → ∀ d', d' = ((List.range k).flatMap accs).foldl replayAccess d →
      body k d' = .ok ((accs k).foldl replayAccess d')) :
    forUp n body d = .ok (((List.range n).flatMap accs).foldl replayAccess d) := by
  obtain ⟨d', e, rfl⟩ := forUp_rule (fun k d' => d' = ((List.range k).flatMap accs).foldl replayAccess d) rfl
    fun k d' hk hd => ⟨_, h k hk d' hd, by
      subst hd; simp only [List.range_succ, List.flatMap_append, List.flatMap_cons, List.flatMap_nil,
        List.append_nil, List.foldl_append]⟩
  exact e

/-- The same, where what a round does is known only while an invariant holds, which the rounds advance. -/
theorem forUp_replay_keeping {n : Nat} {body : Nat → Device → Except Fault Device} {d : Device} (accs : Nat → List Access)
    (P : Nat → Device → Prop) (h0 : P 0 d)
    (h : ∀ k, k < n → ∀ d', P k d' →
      body k d' = .ok ((accs k).foldl replayAccess d') ∧ P (k + 1) ((accs k).foldl replayAccess d')) :
    forUp n body d = .ok (((List.range n).flatMap accs).foldl replayAccess d) ∧
      P n (((List.range n).flatMap accs).foldl replayAccess d) := by
  obtain ⟨d', e, rfl, hP⟩ := forUp_rule
    (fun k d' => d' = ((List.range k).flatMap accs).foldl replayAccess d ∧ P k d') ⟨rfl, h0⟩
    fun k d' hk ⟨hd, hp⟩ => ⟨_, (h k hk d' hp).1, by
      subst hd; simp only [List.range_succ, List.flatMap_append, List.flatMap_cons, List.flatMap_nil,
        List.append_nil, List.foldl_append], (h k hk d' hp).2⟩
  exact ⟨e, hP⟩

end Sys2Proof.Machine
end

