-- ==== Sys2Proof/Laws/State.lean ====
section
/-! SUPPORT. One lemma per field for each named update of State (Machine/Ops.lean), and the algebra of `andThen`,
`onDevice` and `ifConfigured`. -/

namespace Sys2Proof.Machine

variable (s : State)

@[simp] theorem State.setDevice_configured (d : Device) : (s.setDevice d).configured = s.configured := rfl
@[simp] theorem State.setDevice_desc (d : Device) : (s.setDevice d).desc = s.desc := rfl
@[simp] theorem State.setDevice_curH (d : Device) : (s.setDevice d).curH = s.curH := rfl
@[simp] theorem State.setDevice_curV (d : Device) : (s.setDevice d).curV = s.curV := rfl
@[simp] theorem State.setDevice_mode (d : Device) : (s.setDevice d).mode = s.mode := rfl
@[simp] theorem State.setDevice_pending (d : Device) : (s.setDevice d).pending = s.pending := rfl
@[simp] theorem State.setDevice_params (d : Device) : (s.setDevice d).params = s.params := rfl
@[simp] theorem State.setDevice_dev (d : Device) : (s.setDevice d).dev = d := rfl
@[simp] theorem State.setDevice_input (d : Device) : (s.setDevice d).input = s.input := rfl
@[simp] theorem State.setDevice_responses (d : Device) : (s.setDevice d).responses = s.responses := rfl

@[simp] theorem State.setCurH_configured (h : Nat) : (s.setCurH h).configured = s.configured := rfl
@[simp] theorem State.setCurH_desc (h : Nat) : (s.setCurH h).desc = s.desc := rfl
@[simp] theorem State.setCurH_curH (h : Nat) : (s.setCurH h).curH = BitVec.ofNat 16 h := rfl
@[simp] theorem State.setCurH_curV (h : Nat) : (s.setCurH h).curV = s.curV := rfl
@[simp] theorem State.setCurH_mode (h : Nat) : (s.setCurH h).mode = s.mode := rfl
@[simp] theorem State.setCurH_pending (h : Nat) : (s.setCurH h).pending = s.pending := rfl
@[simp] theorem State.setCurH_params (h : Nat) : (s.setCurH h).params = s.params := rfl
@[simp] theorem State.setCurH_dev (h : Nat) : (s.setCurH h).dev = s.dev := rfl
@[simp] theorem State.setCurH_input (h : Nat) : (s.setCurH h).input = s.input := rfl
@[simp] theorem State.setCurH_responses (h : Nat) : (s.setCurH h).responses = s.responses := rfl

@[simp] theorem State.setCurV_configured (v : Nat) : (s.setCurV v).configured = s.configured := rfl
@[simp] theorem State.setCurV_desc (v : Nat) : (s.setCurV v).desc = s.desc := rfl
@[simp] theorem State.setCurV_curH (v : Nat) : (s.setCurV v).curH = s.curH := rfl
@[simp] theorem State.setCurV_curV (v : Nat) : (s.setCurV v).curV = BitVec.ofNat 16 v := rfl
@[simp] theorem State.setCurV_mode (v : Nat) : (s.setCurV v).mode = s.mode := rfl
@[simp] theorem State.setCurV_pending (v : Nat) : (s.setCurV v).pending = s.pending := rfl
@[simp] theorem State.setCurV_params (v : Nat) : (s.setCurV v).params = s.params := rfl
@[simp] theorem State.setCurV_dev (v : Nat) : (s.setCurV v).dev = s.dev := rfl
@[simp] theorem State.setCurV_input (v : Nat) : (s.setCurV v).input = s.input := rfl
@[simp] theorem State.setCurV_responses (v : Nat) : (s.setCurV v).responses = s.responses := rfl

@[simp] theorem State.setPanicMode_configured : (s.setPanicMode).configured = s.configured := rfl
@[simp] theorem State.setPanicMode_desc : (s.setPanicMode).desc = s.desc := rfl
@[simp] theorem State.setPanicMode_curH : (s.setPanicMode).curH = s.curH := rfl
@[simp] theorem State.setPanicMode_curV : (s.setPanicMode).curV = s.curV := rfl
@[simp] theorem State.setPanicMode_mode : (s.setPanicMode).mode = .panic := rfl
@[simp] theorem State.setPanicMode_pending : (s.setPanicMode).pending = s.pending := rfl
@[simp] theorem State.setPanicMode_params : (s.setPanicMode).params = s.params := rfl
@[simp] theorem State.setPanicMode_dev : (s.setPanicMode).dev = s.dev := rfl
@[simp] theorem State.setPanicMode_input : (s.setPanicMode).input = s.input := rfl
@[simp] theorem State.setPanicMode_responses : (s.setPanicMode).responses = s.responses := rfl

@[simp] theorem State.construct_configured (d : Descriptor) : (s.construct d).configured = true := rfl
@[simp] theorem State.construct_desc (d : Descriptor) : (s.construct d).desc = d := rfl
@[simp] theorem State.construct_curH (d : Descriptor) : (s.construct d).curH = 0#16 := rfl
@[simp] theorem State.construct_curV (d : Descriptor) : (s.construct d).curV = 0#16 := rfl
@[simp] theorem State.construct_mode (d : Descriptor) : (s.construct d).mode = .normal := rfl
@[simp] theorem State.construct_pending (d : Descriptor) : (s.construct d).pending = s.pending := rfl
@[simp] theorem State.construct_params (d : Descriptor) : (s.construct d).params = s.params := rfl
@[simp] theorem State.construct_dev (d : Descriptor) : (s.construct d).dev = s.dev := rfl
@[simp] theorem State.construct_input (d : Descriptor) : (s.construct d).input = s.input := rfl
@[simp] theorem State.construct_responses (d : Descriptor) : (s.construct d).responses = s.responses := rfl

@[simp] theorem State.setPending_configured (w : Option Word64) : (s.setPending w).configured = s.configured := rfl
@[simp] theorem State.setPending_desc (w : Option Word64) : (s.setPending w).desc = s.desc := rfl
@[simp] theorem State.setPending_curH (w : Option Word64) : (s.setPending w).curH = s.curH := rfl
@[simp] theorem State.setPending_curV (w : Option Word64) : (s.setPending w).curV = s.curV := rfl
@[simp] theorem State.setPending_mode (w : Option Word64) : (s.setPending w).mode = s.mode := rfl
@[simp] theorem State.setPending_pending (w : Option Word64) : (s.setPending w).pending = w := rfl
@[simp] theorem State.setPending_params (w : Option Word64) : (s.setPending w).params = s.params := rfl
@[simp] theorem State.setPending_dev (w : Option Word64) : (s.setPending w).dev = s.dev := rfl
@[simp] theorem State.setPending_input (w : Option Word64) : (s.setPending w).input = s.input := rfl
@[simp] theorem State.setPending_responses (w : Option Word64) : (s.setPending w).responses = s.responses := rfl

@[simp] theorem State.setInput_configured (es : List Event) : (s.setInput es).configured = s.configured := rfl
@[simp] theorem State.setInput_desc (es : List Event) : (s.setInput es).desc = s.desc := rfl
@[simp] theorem State.setInput_curH (es : List Event) : (s.setInput es).curH = s.curH := rfl
@[simp] theorem State.setInput_curV (es : List Event) : (s.setInput es).curV = s.curV := rfl
@[simp] theorem State.setInput_mode (es : List Event) : (s.setInput es).mode = s.mode := rfl
@[simp] theorem State.setInput_pending (es : List Event) : (s.setInput es).pending = s.pending := rfl
@[simp] theorem State.setInput_params (es : List Event) : (s.setInput es).params = s.params := rfl
@[simp] theorem State.setInput_dev (es : List Event) : (s.setInput es).dev = s.dev := rfl
@[simp] theorem State.setInput_input (es : List Event) : (s.setInput es).input = es := rfl
@[simp] theorem State.setInput_responses (es : List Event) : (s.setInput es).responses = s.responses := rfl

@[simp] theorem State.respond_configured (st : Status) (data : Rgb24) : (s.respond st data).configured = s.configured := rfl
@[simp] theorem State.respond_desc (st : Status) (data : Rgb24) : (s.respond st data).desc = s.desc := rfl
@[simp] theorem State.respond_curH (st : Status) (data : Rgb24) : (s.respond st data).curH = s.curH := rfl
@[simp] theorem State.respond_curV (st : Status) (data : Rgb24) : (s.respond st data).curV = s.curV := rfl
@[simp] theorem State.respond_mode (st : Status) (data : Rgb24) : (s.respond st data).mode = s.mode := rfl
@[simp] theorem State.respond_pending (st : Status) (data : Rgb24) : (s.respond st data).pending = s.pending := rfl
@[simp] theorem State.respond_params (st : Status) (data : Rgb24) : (s.respond st data).params = s.params := rfl
@[simp] theorem State.respond_dev (st : Status) (data : Rgb24) : (s.respond st data).dev = s.dev := rfl
@[simp] theorem State.respond_input (st : Status) (data : Rgb24) : (s.respond st data).input = s.input := rfl
@[simp] theorem State.respond_responses (st : Status) (data : Rgb24) : (s.respond st data).responses = responseWord st data :: s.responses := rfl

@[simp] theorem State.reject_configured (cause : Status) : (s.reject cause).configured = s.configured := rfl
@[simp] theorem State.reject_desc (cause : Status) : (s.reject cause).desc = s.desc := rfl
@[simp] theorem State.reject_curH (cause : Status) : (s.reject cause).curH = s.curH := rfl
@[simp] theorem State.reject_curV (cause : Status) : (s.reject cause).curV = s.curV := rfl
@[simp] theorem State.reject_mode (cause : Status) : (s.reject cause).mode = s.mode := rfl
@[simp] theorem State.reject_pending (cause : Status) : (s.reject cause).pending = s.pending := rfl
@[simp] theorem State.reject_params (cause : Status) : (s.reject cause).params = s.params := rfl
@[simp] theorem State.reject_dev (cause : Status) : (s.reject cause).dev = s.dev := rfl
@[simp] theorem State.reject_input (cause : Status) : (s.reject cause).input = s.input := rfl
@[simp] theorem State.reject_responses (cause : Status) : (s.reject cause).responses = responseWord cause 0#24 :: s.responses := rfl

@[simp] theorem State.applyReset_configured : (s.applyReset).configured = false := rfl
@[simp] theorem State.applyReset_desc : (s.applyReset).desc = Descriptor.unset := rfl
@[simp] theorem State.applyReset_curH : (s.applyReset).curH = 0#16 := rfl
@[simp] theorem State.applyReset_curV : (s.applyReset).curV = 0#16 := rfl
@[simp] theorem State.applyReset_mode : (s.applyReset).mode = .normal := rfl
@[simp] theorem State.applyReset_pending : (s.applyReset).pending = none := rfl
@[simp] theorem State.applyReset_params : (s.applyReset).params = s.params := rfl
@[simp] theorem State.applyReset_dev : (s.applyReset).dev = s.dev := rfl
@[simp] theorem State.applyReset_input : (s.applyReset).input = s.input := rfl
@[simp] theorem State.applyReset_responses : (s.applyReset).responses = s.responses := rfl

@[simp] theorem activeColors_setDevice (d : Device) : activeColors (s.setDevice d) = activeColors s := rfl
@[simp] theorem activeColors_setCurH (h : Nat) : activeColors (s.setCurH h) = activeColors s := rfl
@[simp] theorem activeColors_setCurV (v : Nat) : activeColors (s.setCurV v) = activeColors s := rfl

/-- CUR_H holds what is written, where it fits (R25). -/
theorem State.setCurH_toNat (h : Nat) (hh : h < 2 ^ 16) : (s.setCurH h).curH.toNat = h := by
  simp only [State.setCurH_curH, BitVec.toNat_ofNat]; exact Nat.mod_eq_of_lt hh

/-- CUR_V holds what is written, where it fits (R25). -/
theorem State.setCurV_toNat (v : Nat) (hv : v < 2 ^ 16) : (s.setCurV v).curV.toNat = v := by
  simp only [State.setCurV_curV, BitVec.toNat_ofNat]; exact Nat.mod_eq_of_lt hv

@[simp] theorem andThen_next (k : State → Result) : andThen (.next s) k = k s := rfl
@[simp] theorem andThen_fault (f : Fault) (k : State → Result) : andThen (.fault f) k = .fault f := rfl
@[simp] theorem andThen_refused (r : Refusal) (k : State → Result) : andThen (.refused r) k = .refused r := rfl

variable {s}

/-- A sequence completes exactly when both parts do. -/
theorem andThen_eq_next {r : Result} {k : State → Result} {t : State} :
    andThen r k = .next t ↔ ∃ m, r = .next m ∧ k m = .next t := by
  cases r <;> simp [andThen]

theorem onDevice_eq {op : Device → Except Fault Device} {k : State → Result} {d : Device}
    (h : op s.dev = .ok d) : onDevice s op k = k (s.setDevice d) := by
  simp [onDevice, h]

/-- An operation on the device completes exactly when it answers a device and what follows completes. -/
theorem onDevice_eq_next {op : Device → Except Fault Device} {k : State → Result} {t : State} :
    onDevice s op k = .next t ↔ ∃ d, op s.dev = .ok d ∧ k (s.setDevice d) = .next t := by
  unfold onDevice; cases op s.dev <;> simp

theorem ifConfigured_of_true {body : Result} (h : s.configured = true) : ifConfigured s body = body := by
  simp [ifConfigured, h]

theorem ifConfigured_of_false {body : Result} (h : s.configured = false) :
    ifConfigured s body = .next (s.reject .rejNotConfigured) := by
  simp [ifConfigured, h]

end Sys2Proof.Machine
end

