-- ==== Sys2Proof/Laws/Framebuffer.lean ====
section
/-! SUPPORT. The converter's round trips, the address calculator's facts (20_memory.md rules R52, R56, R69), and what the
framebuffer primitives do, as lists of accesses. -/

namespace Sys2Proof.Machine

/-! ### The converter -/

/-- The four bytes of a word made of four bytes. -/
theorem extractLsb'_append4 (b3 b2 b1 b0 : Byte) :
    (b3 ++ b2 ++ b1 ++ b0).extractLsb' 0 8 = b0 ∧ (b3 ++ b2 ++ b1 ++ b0).extractLsb' 8 8 = b1 ∧
    (b3 ++ b2 ++ b1 ++ b0).extractLsb' 16 8 = b2 ∧ (b3 ++ b2 ++ b1 ++ b0).extractLsb' 24 8 = b3 := by
  refine ⟨?_, ?_, ?_, ?_⟩ <;>
  · apply BitVec.eq_of_getLsbD_eq
    intro i hi
    simp only [BitVec.getLsbD_extractLsb', BitVec.getLsbD_append]
    repeat' split
    all_goals first | omega | (rw [decide_eq_true hi, Bool.true_and]; congr 1; omega)

/-- Decode undoes Encode (R107). -/
theorem decodePixel_encodePixel (f : Fmt) (p : Pixel) : decodePixel f (encodePixel f p) = p := by
  obtain ⟨r, g, b⟩ := p
  cases f <;> simp only [encodePixel, decodePixel] <;>
    simp only [(extractLsb'_append4 _ _ _ _).1, (extractLsb'_append4 _ _ _ _).2.1, (extractLsb'_append4 _ _ _ _).2.2.1]

/-- The reserved byte of an encoded pixel is 0 (R106). -/
theorem byteOf_encodePixel_three (f : Fmt) (p : Pixel) : byteOf (encodePixel f p) 3 = 0#8 := by
  cases f <;> exact (extractLsb'_append4 _ _ _ _).2.2.2

/-! ### Addresses -/

section addresses

variable {g : Descriptor}

theorem pixAddr_offset_lt (hs : g.hres.toNat ≤ g.stride.toNat) {h v : Nat} (hv : visible g h v) :
    v * g.stride.toNat + h < g.stride.toNat * g.vres.toNat := by
  obtain ⟨h1, h2⟩ := hv
  calc v * g.stride.toNat + h < v * g.stride.toNat + g.stride.toNat := by omega
    _ = (v + 1) * g.stride.toNat := by rw [Nat.succ_mul]
    _ ≤ g.vres.toNat * g.stride.toNat := Nat.mul_le_mul_right _ h2
    _ = g.stride.toNat * g.vres.toNat := Nat.mul_comm _ _

/-- The four bytes of a visible pixel lie below the end of the region (R52). -/
theorem pixAddr_lt_end (hg : descriptorOk g) {h v : Nat} (hv : visible g h v) :
    pixAddr g h v + 4 ≤ g.base.toNat + 4 * g.stride.toNat * g.vres.toNat := by
  have := pixAddr_offset_lt hg.2.2.1 hv
  rw [Nat.mul_assoc]; unfold pixAddr; omega

theorem pixAddr_inSpace (hg : descriptorOk g) {h v : Nat} (hv : visible g h v) : inSpace (pixAddr g h v) :=
  Nat.le_trans (pixAddr_lt_end hg hv) hg.2.2.2.2

/-- Every access is aligned (R56). -/
theorem pixAddr_aligned (hg : descriptorOk g) (h v : Nat) : pixAddr g h v % 4 = 0 := by
  have := hg.2.2.2.1
  unfold pixAddr; omega

/-- A byte belongs to one visible pixel at most: the address calculator is injective. -/
theorem pixAddr_overlap (hg : descriptorOk g) {h v h' v' x : Nat} (hv : visible g h v) (hv' : visible g h' v')
    (h1 : pixAddr g h v ≤ x) (h2 : x < pixAddr g h v + 4) (h1' : pixAddr g h' v' ≤ x) (h2' : x < pixAddr g h' v' + 4) :
    h = h' ∧ v = v' := by
  have hs : g.hres.toNat ≤ g.stride.toNat := hg.2.2.1
  have e : v * g.stride.toNat + h = v' * g.stride.toNat + h' := by unfold pixAddr at *; omega
  have l : h < g.stride.toNat := by have := hv.1; omega
  have l' : h' < g.stride.toNat := by have := hv'.1; omega
  have ev : v = v' := by
    have e1 : (h + g.stride.toNat * v) / g.stride.toNat = v := by
      rw [Nat.add_mul_div_left _ _ (by omega), Nat.div_eq_of_lt l, Nat.zero_add]
    have e2 : (h' + g.stride.toNat * v') / g.stride.toNat = v' := by
      rw [Nat.add_mul_div_left _ _ (by omega), Nat.div_eq_of_lt l', Nat.zero_add]
    rw [← e1, ← e2]; congr 1; rw [Nat.mul_comm _ v, Nat.mul_comm _ v']; omega
  subst ev; exact ⟨by omega, rfl⟩

end addresses

/-! ### The primitives -/

/-- The accesses of one DrawPixelIfVisible (R120). -/
def drawAccesses (g : Descriptor) (h v : Nat) (p : Pixel) : List Access :=
  if visible g h v then [.write (pixAddr g h v) (encodePixel g.fmt p)] else []

/-- DrawPixelIfVisible makes those accesses (R120). -/
theorem drawPixelIfVisible_eq {g : Descriptor} (hg : descriptorOk g) (h v : Nat) (p : Pixel) (d : Device) :
    drawPixelIfVisible g h v p d = .ok ((drawAccesses g h v p).foldl replayAccess d) := by
  unfold drawPixelIfVisible drawAccesses
  split
  · rename_i hv; rw [memWrite_eq (pixAddr_inSpace hg hv)]; rfl
  · rfl

/-- All a DrawPixelIfVisible that completes can do, whatever the descriptor. -/
theorem drawPixelIfVisible_eq_ok {g : Descriptor} {h v : Nat} {p : Pixel} {d d' : Device}
    (e : drawPixelIfVisible g h v p d = .ok d') :
    (visible g h v ∧ inSpace (pixAddr g h v) ∧
      d' = replayAccess d (.write (pixAddr g h v) (encodePixel g.fmt p))) ∨ (¬ visible g h v ∧ d' = d) := by
  unfold drawPixelIfVisible at e
  split at e
  · rename_i hv; exact .inl ⟨hv, memWrite_eq_ok.1 e⟩
  · rename_i hv; cases e; exact .inr ⟨hv, rfl⟩

/-- GetPixelIfVisible on a visible pixel: one read, decoded (R121). -/
theorem getPixelIfVisible_eq {g : Descriptor} (hg : descriptorOk g) {h v : Nat} (hv : visible g h v) (d : Device) :
    getPixelIfVisible g h v d =
      .ok (some (decodePixel g.fmt (Memory.read32 d.mem (pixAddr g h v))),
        replayAccess d (.read (pixAddr g h v) (Memory.read32 d.mem (pixAddr g h v)))) := by
  rw [getPixelIfVisible, if_pos hv, memRead_eq (pixAddr_inSpace hg hv)]

/-- GetPixelIfVisible elsewhere: absent, with no access (R121). -/
theorem getPixelIfVisible_absent {g : Descriptor} {h v : Nat} (hv : ¬ visible g h v) (d : Device) :
    getPixelIfVisible g h v d = .ok (none, d) := if_neg hv

/-- The accesses of a painted rectangle, in order (R123, R154, R165). -/
def paintAccesses (g : Descriptor) (h0 v0 w h : Nat) (color : Nat → Nat → Pixel) : List Access :=
  (List.range h).flatMap fun y => (List.range w).flatMap fun x => drawAccesses g (h0 + x) (v0 + y) (color y x)

/-- Painting makes those accesses: it never stops where the descriptor passes INIT's checks. -/
theorem paint_eq {g : Descriptor} (hg : descriptorOk g) (h0 v0 w h : Nat) (color : Nat → Nat → Pixel) (d : Device) :
    paint g h0 v0 w h color d = .ok ((paintAccesses g h0 v0 w h color).foldl replayAccess d) :=
  forUp_replay _ fun _ _ _ _ => forUp_replay _ fun _ _ _ _ => drawPixelIfVisible_eq hg _ _ _ _

theorem mem_paintAccesses {g : Descriptor} {h0 v0 w h : Nat} {color : Nat → Nat → Pixel} {acc : Access} :
    acc ∈ paintAccesses g h0 v0 w h color ↔ ∃ y x, y < h ∧ x < w ∧ visible g (h0 + x) (v0 + y) ∧
      acc = .write (pixAddr g (h0 + x) (v0 + y)) (encodePixel g.fmt (color y x)) := by
  simp only [paintAccesses, List.mem_flatMap, List.mem_range, drawAccesses]
  constructor
  · rintro ⟨y, hy, x, hx, hm⟩
    split at hm
    · exact ⟨y, x, hy, hx, ‹_›, List.mem_singleton.1 hm⟩
    · exact absurd hm List.not_mem_nil
  · rintro ⟨y, x, hy, hx, hv, rfl⟩
    exact ⟨y, hy, x, hx, by rw [if_pos hv]; exact List.mem_singleton.2 rfl⟩

theorem length_flatMap_range {α : Type} {n c : Nat} {f : Nat → List α} (h : ∀ k, k < n → (f k).length = c) :
    ((List.range n).flatMap f).length = n * c := by
  induction n with
  | zero => simp
  | succ n ih =>
    rw [List.range_succ, List.flatMap_append, List.length_append, ih fun k hk => h k (by omega)]
    simp [h n (by omega), Nat.succ_mul]

/-- A rectangle of visible pixels takes one write per pixel. -/
theorem length_paintAccesses {g : Descriptor} {h0 v0 w h : Nat} {color : Nat → Nat → Pixel}
    (hv : ∀ y x, y < h → x < w → visible g (h0 + x) (v0 + y)) :
    (paintAccesses g h0 v0 w h color).length = h * w := by
  refine length_flatMap_range fun y hy => ?_
  rw [length_flatMap_range (c := 1) fun x hx => by rw [drawAccesses, if_pos (hv y x hy hx)]; rfl]
  omega

/-- Every visible pixel of a painted rectangle holds its colour. -/
theorem read?_paint {g : Descriptor} (hg : descriptorOk g) {h0 v0 w h : Nat} {color : Nat → Nat → Pixel} {y x : Nat}
    (hy : y < h) (hx : x < w) (hv : visible g (h0 + x) (v0 + y)) {k : Nat} (hk : k < 4) (d : Device) :
    Memory.read? ((paintAccesses g h0 v0 w h color).foldl replayAccess d).mem (pixAddr g (h0 + x) (v0 + y) + k) =
      some (byteOf (encodePixel g.fmt (color y x)) k) := by
  refine read?_replay_of_agree (fun a w' hm h1 h2 => ?_)
    (.inr ⟨_, mem_paintAccesses.2 ⟨y, x, hy, hx, hv, rfl⟩, by simp only [stores]; omega⟩)
  obtain ⟨y', x', hy', hx', hv', e⟩ := mem_paintAccesses.1 hm
  cases e
  obtain ⟨e1, e2⟩ := pixAddr_overlap hg hv hv' (x := pixAddr g (h0 + x) (v0 + y) + k) (by omega) (by omega) h1 h2
  have ex : x = x' := by omega
  have ey : y = y' := by omega
  subst ex; subst ey
  congr 1; omega

/-- A byte of no visible pixel of a painted rectangle is unchanged. -/
theorem read?_paint_frame {g : Descriptor} {h0 v0 w h : Nat} {color : Nat → Nat → Pixel} {a : Nat}
    (ha : ∀ y x, y < h → x < w → visible g (h0 + x) (v0 + y) →
      ¬ (pixAddr g (h0 + x) (v0 + y) ≤ a ∧ a < pixAddr g (h0 + x) (v0 + y) + 4)) (d : Device) :
    Memory.read? ((paintAccesses g h0 v0 w h color).foldl replayAccess d).mem a = Memory.read? d.mem a := by
  refine read?_replay_of_not_stores (fun acc hm => ?_) d
  obtain ⟨y, x, hy, hx, hv, rfl⟩ := mem_paintAccesses.1 hm
  exact ha y x hy hx hv

/-- Fill paints the visible resolution (R123). -/
theorem fillScreen_eq {g : Descriptor} (hg : descriptorOk g) (p : Pixel) (d : Device) :
    fillScreen g p d =
      .ok ((paintAccesses g 0 0 g.hres.toNat g.vres.toNat fun _ _ => p).foldl replayAccess d) :=
  paint_eq hg _ _ _ _ _ d

end Sys2Proof.Machine
end

