-- ==== Sys2Proof/Laws/CharBuffer.lean ====
section
/-! SUPPORT. The grid (10_state.md rule R24, 43_charbuffer.md rules R160 and R161), the scroll as a list of accesses and
what it leaves in memory (rules R163 to R167, R176), and the cursor's moves (rules R162, R168 to R172). -/

namespace Sys2Proof.Machine

variable {p : Params} {g : Descriptor}

/-! ### The grid -/

theorem cw_pos (p : Params) : 0 < cw p := Nat.succ_pos _
theorem ch_pos (p : Params) : 0 < ch p := Nat.succ_pos _
theorem cw_le (p : Params) : cw p ≤ 320 := p.cwLess1.isLt
theorem ch_le (p : Params) : ch p ≤ 200 := p.chLess1.isLt

theorem gridW_mul_le (p : Params) (g : Descriptor) : gridW p g * cw p ≤ g.hres.toNat := Nat.div_mul_le_self _ _
theorem gridH_mul_le (p : Params) (g : Descriptor) : gridH p g * ch p ≤ g.vres.toNat := Nat.div_mul_le_self _ _

/-- The grid is at least 1 by 1 (R5, R24). -/
theorem gridW_pos (hg : descriptorOk g) : 0 < gridW p g :=
  Nat.div_pos (Nat.le_trans (cw_le p) hg.1.1) (cw_pos p)

theorem gridH_pos (hg : descriptorOk g) : 0 < gridH p g :=
  Nat.div_pos (Nat.le_trans (ch_le p) hg.2.1.1) (ch_pos p)

theorem visible_of_inGrid {h v : Nat} (hi : inGrid p g h v) : visible g h v :=
  ⟨Nat.lt_of_lt_of_le hi.1 (gridW_mul_le p g), Nat.lt_of_lt_of_le hi.2 (gridH_mul_le p g)⟩

theorem cell_lt {n c k x : Nat} (hk : k < n) (hx : x < c) : k * c + x < n * c := by
  calc k * c + x < k * c + c := by omega
    _ = (k + 1) * c := by rw [Nat.succ_mul]
    _ ≤ n * c := Nat.mul_le_mul_right _ hk

/-- Every pixel of a cell of the grid is in the grid (R161). -/
theorem inGrid_cell {col row x y : Nat} (hc : col < gridW p g) (hr : row < gridH p g) (hx : x < cw p) (hy : y < ch p) :
    inGrid p g (col * cw p + x) (row * ch p + y) := ⟨cell_lt hc hx, cell_lt hr hy⟩

/-- A coordinate below n cells of size c lies in one of them. -/
theorem exists_cell {n c a : Nat} (h : a < n * c) : ∃ k x, k < n ∧ x < c ∧ a = k * c + x := by
  have hc : 0 < c := Nat.pos_of_ne_zero fun h0 => by subst h0; omega
  exact ⟨a / c, a % c, (Nat.div_lt_iff_lt_mul hc).2 h, Nat.mod_lt _ hc, by rw [Nat.mul_comm]; exact (Nat.div_add_mod a c).symm⟩

/-! ### The raw copy -/

/-- The two accesses of a raw copy, with the word that memory `m` holds at the source. -/
def copyAccesses (g : Descriptor) (m : Memory) (dh dv sh sv : Nat) : List Access :=
  [.read (pixAddr g sh sv) (Memory.read32 m (pixAddr g sh sv)),
   .write (pixAddr g dh dv) (Memory.read32 m (pixAddr g sh sv))]

/-- CopyOnePixel inside the grid (R122): a read, then a write of the same raw word. -/
theorem copyOnePixel_eq (hg : descriptorOk g) {dh dv sh sv : Nat} (hs : inGrid p g sh sv) (hd : inGrid p g dh dv)
    (d : Device) :
    copyOnePixel p g dh dv sh sv d = .ok ((copyAccesses g d.mem dh dv sh sv).foldl replayAccess d) := by
  rw [copyOnePixel, if_pos ⟨hs, hd⟩, memRead_eq (pixAddr_inSpace hg (visible_of_inGrid hs))]
  exact memWrite_eq (pixAddr_inSpace hg (visible_of_inGrid hd)) _ _

/-- The visible pixels of the scanlines from `v0` on hold what memory `m` held. -/
def intactFrom (g : Descriptor) (m : Memory) (v0 : Nat) (d : Device) : Prop :=
  ∀ h v, visible g h v → v0 ≤ v → ∀ k, k < 4 →
    Memory.read? d.mem (pixAddr g h v + k) = Memory.read? m (pixAddr g h v + k)

theorem intactFrom_read32 {m : Memory} {v0 : Nat} {d : Device} (hi : intactFrom g m v0 d) {h v : Nat}
    (hv : visible g h v) (h0 : v0 ≤ v) : Memory.read32 d.mem (pixAddr g h v) = Memory.read32 m (pixAddr g h v) :=
  Memory.read32_congr fun x h1 h2 => by
    obtain ⟨k, rfl⟩ := Nat.exists_eq_add_of_le h1
    simp only [Memory.read, hi h v hv h0 k (by omega)]

/-- A copy to a scanline above `v0` leaves the scanlines from `v0` on as they are. -/
theorem intactFrom_copy (hg : descriptorOk g) {m m' : Memory} {v0 dh dv sh sv : Nat} {d : Device}
    (hi : intactFrom g m v0 d) (hd : visible g dh dv) (hlt : dv < v0) :
    intactFrom g m v0 ((copyAccesses g m' dh dv sh sv).foldl replayAccess d) := by
  intro h v hv h0 k hk
  rw [read?_replay_of_not_stores, hi h v hv h0 k hk]
  intro acc hm
  simp only [copyAccesses, List.mem_cons, List.not_mem_nil, or_false] at hm
  rcases hm with rfl | rfl
  · exact fun h => h
  · rintro ⟨h1, h2⟩
    have := (pixAddr_overlap hg hv hd (x := pixAddr g h v + k) (by omega) (by omega) h1 h2).2
    omega

/-! ### The scroll -/

/-- The accesses of the row shift, with the words that memory `m` holds (R163, R164). -/
def shiftAccesses (p : Params) (g : Descriptor) (m : Memory) : List Access :=
  (List.range (gridH p g - 1)).flatMap fun row => (List.range (gridW p g)).flatMap fun col =>
    (List.range (ch p)).flatMap fun y => (List.range (cw p)).flatMap fun x =>
      copyAccesses g m (col * cw p + x) (row * ch p + y) (col * cw p + x) ((row + 1) * ch p + y)

/-- The row shift reads what stood in memory before the scroll: each row is read before it is overwritten (R164). -/
theorem shiftRowsUp_eq (hg : descriptorOk g) (d : Device) :
    shiftRowsUp p g d = .ok ((shiftAccesses p g d.mem).foldl replayAccess d) := by
  refine (forUp_replay_keeping _ (fun row d' => intactFrom g d.mem (row * ch p) d') (fun _ _ _ _ _ _ => rfl)
    fun row hrow d1 i1 => ?_).1
  have i1' : intactFrom g d.mem ((row + 1) * ch p) d1 := fun h v hv h0 =>
    i1 h v hv (Nat.le_trans (Nat.mul_le_mul_right _ (Nat.le_succ row)) h0)
  refine forUp_replay_keeping _ (fun _ d' => intactFrom g d.mem ((row + 1) * ch p) d') i1' fun col hcol d2 i2 => ?_
  refine forUp_replay_keeping _ (fun _ d' => intactFrom g d.mem ((row + 1) * ch p) d') i2 fun y hy d3 i3 => ?_
  refine forUp_replay_keeping _ (fun _ d' => intactFrom g d.mem ((row + 1) * ch p) d') i3 fun x hx d4 i4 => ?_
  have hs : inGrid p g (col * cw p + x) ((row + 1) * ch p + y) := inGrid_cell hcol (by omega) hx hy
  have hd : inGrid p g (col * cw p + x) (row * ch p + y) := inGrid_cell hcol (by omega) hx hy
  have hlt : row * ch p + y < (row + 1) * ch p := cell_lt (Nat.lt_succ_self row) hy
  refine ⟨?_, intactFrom_copy hg i4 (visible_of_inGrid hd) hlt⟩
  rw [copyOnePixel_eq hg hs hd]
  have e := intactFrom_read32 i4 (visible_of_inGrid hs) (Nat.le_add_right _ _)
  simp only [copyAccesses, e]

/-- The writes of the row shift: each pixel of rows 0 to H-2 gets the raw word one cell below it. -/
theorem write_mem_shiftAccesses {m : Memory} {a : Nat} {w : PixelWord} :
    Access.write a w ∈ shiftAccesses p g m ↔ ∃ h v, h < gridW p g * cw p ∧ v < (gridH p g - 1) * ch p ∧
      a = pixAddr g h v ∧ w = Memory.read32 m (pixAddr g h (v + ch p)) := by
  simp only [shiftAccesses, copyAccesses, List.mem_flatMap, List.mem_range, List.mem_cons, List.not_mem_nil,
    or_false, reduceCtorEq, false_or, Access.write.injEq]
  constructor
  · rintro ⟨row, hrow, col, hcol, y, hy, x, hx, rfl, rfl⟩
    refine ⟨_, _, cell_lt hcol hx, cell_lt hrow hy, rfl, ?_⟩
    rw [Nat.succ_mul]; congr 2; omega
  · rintro ⟨h, v, hh, hv, rfl, rfl⟩
    obtain ⟨col, x, hcol, hx, rfl⟩ := exists_cell hh
    obtain ⟨row, y, hrow, hy, rfl⟩ := exists_cell hv
    refine ⟨row, hrow, col, hcol, y, hy, x, hx, rfl, ?_⟩
    rw [Nat.succ_mul]; congr 2; omega

theorem visible_of_shifted {h v : Nat} (hh : h < gridW p g * cw p) (hv : v < (gridH p g - 1) * ch p) :
    visible g h v ∧ visible g h (v + ch p) := by
  have h1 := gridW_mul_le p g
  have h2 := gridH_mul_le p g
  have h3 : (gridH p g - 1) * ch p + ch p = gridH p g * ch p := by
    have : 0 < gridH p g := by
      rcases Nat.eq_zero_or_pos (gridH p g) with h0 | h0
      · rw [h0] at hv; simp at hv
      · exact h0
    rw [← Nat.succ_mul]; congr 1; omega
  exact ⟨⟨by omega, by omega⟩, by omega, by omega⟩

/-- Every access of the row shift is at a visible pixel (R69). -/
theorem mem_shiftAccesses_visible {m : Memory} {acc : Access} (h : acc ∈ shiftAccesses p g m) :
    ∃ h v, visible g h v ∧ acc.addr = pixAddr g h v := by
  simp only [shiftAccesses, copyAccesses, List.mem_flatMap, List.mem_range, List.mem_cons, List.not_mem_nil,
    or_false] at h
  obtain ⟨row, hrow, col, hcol, y, hy, x, hx, rfl | rfl⟩ := h
  · exact ⟨_, _, visible_of_inGrid (inGrid_cell (p := p) hcol (by omega) hx hy), rfl⟩
  · exact ⟨_, _, visible_of_inGrid (inGrid_cell (p := p) hcol (by omega) hx hy), rfl⟩

/-- Each pixel of rows 0 to H-2 holds, after the shift, the bytes that stood one cell below it. -/
theorem read?_shift (hg : descriptorOk g) {h v k : Nat} (hh : h < gridW p g * cw p) (hv : v < (gridH p g - 1) * ch p)
    (hk : k < 4) (d : Device) :
    Memory.read? ((shiftAccesses p g d.mem).foldl replayAccess d).mem (pixAddr g h v + k) =
      some (Memory.read d.mem (pixAddr g h (v + ch p) + k)) := by
  rw [← byteOf_read32 _ _ _ hk]
  refine read?_replay_of_agree (fun a w' hm h1 h2 => ?_)
    (.inr ⟨_, write_mem_shiftAccesses.2 ⟨h, v, hh, hv, rfl, rfl⟩, by simp only [stores]; omega⟩)
  obtain ⟨h', v', hh', hv', rfl, rfl⟩ := write_mem_shiftAccesses.1 hm
  obtain ⟨rfl, rfl⟩ := pixAddr_overlap hg (visible_of_shifted hh hv).1 (visible_of_shifted hh' hv').1
    (x := pixAddr g h v + k) (by omega) (by omega) h1 h2
  congr 1; omega

/-- A byte of no pixel of rows 0 to H-2 is unchanged by the shift. -/
theorem read?_shift_frame {a : Nat}
    (ha : ∀ h v, h < gridW p g * cw p → v < (gridH p g - 1) * ch p → ¬ (pixAddr g h v ≤ a ∧ a < pixAddr g h v + 4))
    (m : Memory) (d : Device) :
    Memory.read? ((shiftAccesses p g m).foldl replayAccess d).mem a = Memory.read? d.mem a := by
  refine read?_replay_of_not_stores (fun acc hm => ?_) d
  cases acc with
  | read a w => exact fun h => h
  | write a' w =>
    obtain ⟨h, v, hh, hv, rfl, rfl⟩ := write_mem_shiftAccesses.1 hm
    exact ha h v hh hv

/-- The accesses of the last row's clear (R165). -/
def clearAccesses (p : Params) (g : Descriptor) (bg : Pixel) : List Access :=
  (List.range (gridW p g)).flatMap fun col =>
    paintAccesses g (col * cw p) ((gridH p g - 1) * ch p) (cw p) (ch p) fun _ _ => bg

theorem clearLastRow_eq (hg : descriptorOk g) (bg : Pixel) (d : Device) :
    clearLastRow p g bg d = .ok ((clearAccesses p g bg).foldl replayAccess d) :=
  forUp_replay _ fun _ _ _ _ => paint_eq hg _ _ _ _ _ _

theorem lastRow_add (hg : descriptorOk g) : (gridH p g - 1) * ch p + ch p = gridH p g * ch p := by
  have := gridH_pos (p := p) hg
  rw [← Nat.succ_mul]; congr 1; omega

/-- The clear writes the background to every pixel of the last row, and nothing else (R165). -/
theorem mem_clearAccesses (hg : descriptorOk g) {bg : Pixel} {acc : Access} :
    acc ∈ clearAccesses p g bg ↔ ∃ h v, h < gridW p g * cw p ∧ (gridH p g - 1) * ch p ≤ v ∧ v < gridH p g * ch p ∧
      acc = .write (pixAddr g h v) (encodePixel g.fmt bg) := by
  have hl := lastRow_add (p := p) hg
  simp only [clearAccesses, List.mem_flatMap, List.mem_range, mem_paintAccesses]
  constructor
  · rintro ⟨col, hcol, y, x, hy, hx, -, rfl⟩
    exact ⟨_, _, cell_lt hcol hx, Nat.le_add_right _ _, by omega, rfl⟩
  · rintro ⟨h, v, hh, h1, h2, rfl⟩
    obtain ⟨col, x, hcol, hx, rfl⟩ := exists_cell hh
    obtain ⟨y, rfl⟩ := Nat.exists_eq_add_of_le h1
    exact ⟨col, hcol, y, x, by omega, hx, visible_of_inGrid (p := p) ⟨hh, h2⟩, rfl⟩

/-- The accesses of a whole scroll (R167). -/
def scrollAccesses (p : Params) (g : Descriptor) (bg : Pixel) (m : Memory) : List Access :=
  shiftAccesses p g m ++ clearAccesses p g bg

/-- A scroll completes, makes those accesses, and re-anchors the cursor (R166, R167). -/
theorem scroll_eq {s : State} (hg : descriptorOk s.desc) :
    scroll s = .next ((((s.setDevice ((scrollAccesses s.params s.desc (activeColors s).bg s.dev.mem).foldl
      replayAccess s.dev)).setCurH 0).setCurV ((gridH s.params s.desc - 1) * ch s.params))) := by
  unfold scroll
  rw [onDevice_eq (shiftRowsUp_eq hg _), onDevice_eq (clearLastRow_eq hg _ _)]
  simp only [scrollAccesses, List.foldl_append]
  rfl

/-- Every access of a scroll is at a visible pixel (R69). -/
theorem mem_scrollAccesses_visible (hg : descriptorOk g) {bg : Pixel} {m : Memory} {acc : Access}
    (h : acc ∈ scrollAccesses p g bg m) : ∃ h v, visible g h v ∧ acc.addr = pixAddr g h v := by
  rcases List.mem_append.1 h with h | h
  · exact mem_shiftAccesses_visible h
  · obtain ⟨x, y, hx, -, hy, rfl⟩ := (mem_clearAccesses hg).1 h
    exact ⟨x, y, visible_of_inGrid (p := p) ⟨hx, hy⟩, rfl⟩

/-- After a scroll, rows 0 to H-2 hold the raw bytes of the rows below them (R176). -/
theorem read?_scroll_shifted (hg : descriptorOk g) {h v k : Nat} (hh : h < gridW p g * cw p)
    (hv : v < (gridH p g - 1) * ch p) (hk : k < 4) (bg : Pixel) (d : Device) :
    Memory.read? ((scrollAccesses p g bg d.mem).foldl replayAccess d).mem (pixAddr g h v + k) =
      some (Memory.read d.mem (pixAddr g h (v + ch p) + k)) := by
  rw [scrollAccesses, List.foldl_append, read?_replay_of_not_stores, read?_shift hg hh hv hk]
  intro acc hm
  obtain ⟨h', v', hh', h1, h2, rfl⟩ := (mem_clearAccesses hg).1 hm
  rintro ⟨h3, h4⟩
  have := (pixAddr_overlap hg (visible_of_shifted hh hv).1 (visible_of_inGrid (p := p) ⟨hh', h2⟩)
    (x := pixAddr g h v + k) (by omega) (by omega) h3 h4).2
  omega

/-- After a scroll, the last row holds the background (R165, R176). -/
theorem read?_scroll_cleared (hg : descriptorOk g) {h v k : Nat} (hh : h < gridW p g * cw p)
    (h1 : (gridH p g - 1) * ch p ≤ v) (h2 : v < gridH p g * ch p) (hk : k < 4) (bg : Pixel) (m : Memory) (d : Device) :
    Memory.read? ((scrollAccesses p g bg m).foldl replayAccess d).mem (pixAddr g h v + k) =
      some (byteOf (encodePixel g.fmt bg) k) := by
  rw [scrollAccesses, List.foldl_append]
  refine read?_replay_of_agree (fun a w' hm h3 h4 => ?_)
    (.inr ⟨_, (mem_clearAccesses hg).2 ⟨h, v, hh, h1, h2, rfl⟩, by simp only [stores]; omega⟩)
  obtain ⟨h', v', hh', h1', h2', e⟩ := (mem_clearAccesses hg).1 hm
  cases e
  obtain ⟨rfl, rfl⟩ := pixAddr_overlap hg (visible_of_inGrid (p := p) ⟨hh, h2⟩) (visible_of_inGrid (p := p) ⟨hh', h2'⟩)
    (x := pixAddr g h v + k) (by omega) (by omega) h3 h4
  congr 1; omega

/-- A byte of no pixel of the grid is unchanged by a scroll: margins, padding and the rest of memory (R167, R176). -/
theorem read?_scroll_frame (hg : descriptorOk g) {a : Nat}
    (ha : ∀ h v, inGrid p g h v → ¬ (pixAddr g h v ≤ a ∧ a < pixAddr g h v + 4)) (bg : Pixel) (m : Memory) (d : Device) :
    Memory.read? ((scrollAccesses p g bg m).foldl replayAccess d).mem a = Memory.read? d.mem a := by
  rw [scrollAccesses, List.foldl_append, read?_replay_of_not_stores, read?_shift_frame]
  · intro h v hh hv
    refine ha h v ⟨hh, ?_⟩
    have := lastRow_add (p := p) hg
    omega
  · intro acc hm
    obtain ⟨h, v, hh, -, hv, rfl⟩ := (mem_clearAccesses hg).1 hm
    exact ha h v ⟨hh, hv⟩

/-! ### Counts (R167, R270) -/

theorem filter_flatMap_range {α : Type} (q : α → Bool) (n : Nat) (f : Nat → List α) :
    ((List.range n).flatMap f).filter q = (List.range n).flatMap fun k => (f k).filter q := by
  rw [List.filter_flatMap]

theorem length_filter_shiftAccesses (q : Access → Bool) (c : Nat)
    (hq : ∀ m dh dv sh sv, ((copyAccesses g m dh dv sh sv).filter q).length = c) (m : Memory) :
    ((shiftAccesses p g m).filter q).length = (gridH p g - 1) * (gridW p g * (ch p * (cw p * c))) := by
  simp only [shiftAccesses, filter_flatMap_range]
  exact length_flatMap_range fun _ _ => length_flatMap_range fun _ _ => length_flatMap_range fun _ _ =>
    length_flatMap_range fun _ _ => hq _ _ _ _ _

/-- The clear is one write per pixel of the last row (R167). -/
theorem length_clearAccesses (hg : descriptorOk g) (bg : Pixel) :
    (clearAccesses p g bg).length = gridW p g * (ch p * cw p) := by
  have := gridH_pos (p := p) hg
  exact length_flatMap_range fun col hcol => length_paintAccesses fun y x hy hx =>
    visible_of_inGrid (inGrid_cell (p := p) hcol (by omega) hx hy)

/-! ### The cursor -/

section cursor

variable {s : State}

/-- A cell that starts on row `r` fits exactly where `r` is a row of the grid (R162). -/
theorem fits_iff_row (p : Params) (g : Descriptor) (r : Nat) : r * ch p + ch p ≤ g.vres.toNat ↔ r < gridH p g := by
  rw [← Nat.succ_mul, gridH, ← Nat.le_div_iff_mul_le (ch_pos p)]; exact Nat.succ_le_iff

/-- The same across: R169. -/
theorem fits_iff_col (p : Params) (g : Descriptor) (k : Nat) : k * cw p + cw p ≤ g.hres.toNat ↔ k < gridW p g := by
  rw [← Nat.succ_mul, gridW, ← Nat.le_div_iff_mul_le (cw_pos p)]; exact Nat.succ_le_iff

theorem col_lt_2_16 (p : Params) {g : Descriptor} {k : Nat} (h : k ≤ gridW p g) : k * cw p < 2 ^ 16 := by
  have := gridW_mul_le p g
  have := Nat.mul_le_mul_right (cw p) h
  have := g.hres.isLt
  omega

theorem row_lt_2_16 (p : Params) {g : Descriptor} {r : Nat} (h : r ≤ gridH p g) : r * ch p < 2 ^ 16 := by
  have := gridH_mul_le p g
  have := Nat.mul_le_mul_right (ch p) h
  have := g.vres.isLt
  omega

/-- The scroll check on a row of the grid does nothing (R162). -/
theorem scrollCheck_of_fits {r : Nat} (hr : s.curV.toNat = r * ch s.params) (h : r < gridH s.params s.desc) :
    scrollCheck s = .next s := by
  have := (fits_iff_row s.params s.desc r).2 h
  rw [scrollCheck, if_neg (by omega)]

/-- The scroll check one row below the grid scrolls (R162). -/
theorem scrollCheck_of_below {r : Nat} (hr : s.curV.toNat = r * ch s.params) (h : gridH s.params s.desc ≤ r) :
    scrollCheck s = scroll s := by
  have := (fits_iff_row s.params s.desc r).not.2 (by omega)
  rw [scrollCheck, if_pos (by omega)]

/-- Down from a row that is not the last: one row down, no access (R170). -/
theorem goDown_of_lt {r : Nat} (hr : s.curV.toNat = r * ch s.params) (h : r + 1 < gridH s.params s.desc) :
    goDown s = .next (s.setCurV ((r + 1) * ch s.params)) := by
  have e : s.curV.toNat + ch s.params = (r + 1) * ch s.params := by rw [hr, Nat.succ_mul]
  rw [goDown, e]
  exact scrollCheck_of_fits (State.setCurV_toNat _ _ (row_lt_2_16 _ (Nat.le_of_lt h))) h

/-- Down from the last row: a scroll (R162, R166). -/
theorem goDown_of_last {r : Nat} (hr : s.curV.toNat = r * ch s.params) (h : r + 1 = gridH s.params s.desc) :
    goDown s = scroll (s.setCurV ((r + 1) * ch s.params)) := by
  have e : s.curV.toNat + ch s.params = (r + 1) * ch s.params := by rw [hr, Nat.succ_mul]
  rw [goDown, e]
  exact scrollCheck_of_below (State.setCurV_toNat _ _ (row_lt_2_16 _ (Nat.le_of_eq h))) (Nat.le_of_eq h.symm)

/-- To column 0 of a row of the grid: no scroll (R171). -/
theorem goToLineStart_of_fits {r : Nat} (hr : s.curV.toNat = r * ch s.params) (h : r < gridH s.params s.desc) :
    goToLineStart s = .next (s.setCurH 0) := scrollCheck_of_fits hr h

/-- Advance from a column that is not the last: one column right (R168, R169). -/
theorem advanceCursor_of_lt {k : Nat} (hk : s.curH.toNat = k * cw s.params) (h : k + 1 < gridW s.params s.desc) :
    advanceCursor s = .next (s.setCurH ((k + 1) * cw s.params)) := by
  have e : s.curH.toNat + cw s.params = (k + 1) * cw s.params := by rw [hk, Nat.succ_mul]
  have hf := (fits_iff_col s.params s.desc (k + 1)).2 h
  rw [advanceCursor, e, wrapIfFull, if_neg]
  rw [State.setCurH_toNat _ _ (col_lt_2_16 _ (Nat.le_of_lt h))]
  simpa using hf

/-- Advance from the last column: the line wrap, with its scroll check (R168, R169). -/
theorem advanceCursor_of_last {k : Nat} (hk : s.curH.toNat = k * cw s.params) (h : k + 1 = gridW s.params s.desc) :
    advanceCursor s = scrollCheck ((s.setCurH 0).setCurV (s.curV.toNat + ch s.params)) := by
  have e : s.curH.toNat + cw s.params = (k + 1) * cw s.params := by rw [hk, Nat.succ_mul]
  have hf := (fits_iff_col s.params s.desc (k + 1)).not.2 (by omega)
  rw [advanceCursor, e, wrapIfFull, if_pos]
  · rfl
  · rw [State.setCurH_toNat _ _ (col_lt_2_16 _ (Nat.le_of_eq h))]
    simpa using hf

end cursor

/-- BlitGlyph as accesses (R154). -/
theorem blitGlyph_eq (hg : descriptorOk g) (cs : CharColors) (c : Byte) (h0 v0 : Nat) (d : Device) :
    blitGlyph p g cs c h0 v0 d =
      .ok ((paintAccesses g h0 v0 (cw p) (ch p) fun y x => bitColor cs (glyphBit p c y x)).foldl replayAccess d) :=
  paint_eq hg _ _ _ _ _ d

end Sys2Proof.Machine
end

