-- ==== Sys2Proof/Laws/Safety.lean ====
section
/-! SUPPORT. The shared operations in the words of Safety.lean: what a painted rectangle, a glyph and a scroll leave in
memory, and what an access keeps of the memory port's invariant. -/

namespace Sys2Proof.Machine

variable {p : Params} {g : Descriptor}

theorem flatMap_range_congr {α : Type} {n : Nat} {f f' : Nat → List α} (h : ∀ k, k < n → f k = f' k) :
    (List.range n).flatMap f = (List.range n).flatMap f' := by
  induction n with
  | zero => rfl
  | succ n ih =>
    rw [List.range_succ, List.flatMap_append, List.flatMap_append, ih fun k hk => h k (by omega)]
    simp [h n (by omega)]

theorem flatMap_range_singleton {α : Type} (n : Nat) (f : Nat → α) :
    ((List.range n).flatMap fun k => [f k]) = (List.range n).map f := by
  rw [List.map_eq_flatMap]

/-- The accesses of a rectangle of visible pixels: one write each, in order (R123, R154). -/
theorem paintAccesses_of_visible {h0 v0 w h : Nat} {color : Nat → Nat → Pixel}
    (hv : ∀ y x, y < h → x < w → visible g (h0 + x) (v0 + y)) :
    paintAccesses g h0 v0 w h color = (List.range h).flatMap fun y => (List.range w).map fun x =>
      .write (pixAddr g (h0 + x) (v0 + y)) (encodePixel g.fmt (color y x)) :=
  flatMap_range_congr fun y hy => (flatMap_range_congr fun x hx => if_pos (hv y x hy hx)).trans (flatMap_range_singleton _ _)

/-- A glyph's accesses on a cell of the grid, in the words of the statements (R154). -/
theorem paintAccesses_glyph {k r : Nat} (hk : k < gridW p g) (hr : r < gridH p g) (cs : CharColors) (c : Byte) :
    (paintAccesses g (k * cw p) (r * ch p) (cw p) (ch p) fun y x => bitColor cs (glyphBit p c y x)) =
      glyphWrites p g cs c (k * cw p) (r * ch p) :=
  paintAccesses_of_visible fun _ _ hy hx => visible_of_inGrid (inGrid_cell hk hr hx hy)

/-- A scroll's accesses, in the words of the statements (R163, R164, R165). -/
theorem scrollAccesses_eq (hg : descriptorOk g) (bg : Pixel) (m : Memory) :
    scrollAccesses p g bg m = scrollTrace p g bg m := by
  have hr : gridH p g - 1 < gridH p g := Nat.sub_lt (gridH_pos hg) Nat.one_pos
  exact congrArg (shiftAccesses p g m ++ ·) (flatMap_range_congr fun col hc =>
    paintAccesses_of_visible fun _ _ hy hx => visible_of_inGrid (inGrid_cell hc hr hx hy))

/-- A scroll's accesses depend on the words memory holds at visible pixels alone. -/
theorem scrollTrace_congr {bg : Pixel} {m m' : Memory} (h : ∀ a, Memory.read? m a = Memory.read? m' a) :
    scrollTrace p g bg m = scrollTrace p g bg m' := by
  have e : ∀ a, Memory.read32 m a = Memory.read32 m' a := fun a =>
    Memory.read32_congr fun x _ _ => by simp only [Memory.read, h]
  simp only [scrollTrace, e]

/-- The glyph a PUTC draws on a cell, and what is in memory after it, are determined by memory before it (R154). -/
theorem GlyphDrawn.unique {cs : CharColors} {c : Byte} {h0 v0 : Nat} {m m1 m2 : Memory}
    (h1 : GlyphDrawn p g cs c h0 v0 m m1) (h2 : GlyphDrawn p g cs c h0 v0 m m2) (a : Nat) :
    Memory.read? m1 a = Memory.read? m2 a := by
  by_cases ha : ∃ y x, y < ch p ∧ x < cw p ∧ visible g (h0 + x) (v0 + y) ∧ inPixel g (h0 + x) (v0 + y) a
  · obtain ⟨y, x, hy, hx, hv, hp⟩ := ha
    obtain ⟨k, rfl⟩ := Nat.exists_eq_add_of_le hp.1
    have hk : k < 4 := Nat.lt_of_add_lt_add_left hp.2
    rw [h1.inside y x hy hx hv k hk, h2.inside y x hy hx hv k hk]
  · have hn : ∀ y x, y < ch p → x < cw p → visible g (h0 + x) (v0 + y) → ¬ inPixel g (h0 + x) (v0 + y) a :=
      fun y x hy hx hv hp => ha ⟨y, x, hy, hx, hv, hp⟩
    rw [h1.outside a hn, h2.outside a hn]

/-- A painted rectangle, in the words of the statements (R120, R123, R154). -/
theorem painted_paint (hg : descriptorOk g) (h0 v0 w h : Nat) (color : Nat → Nat → Pixel) (d : Device) :
    Painted g h0 v0 w h color d.mem ((paintAccesses g h0 v0 w h color).foldl replayAccess d).mem :=
  ⟨fun _ _ hy hx hv _ hk => read?_paint hg hy hx hv hk d, fun _ ha => read?_paint_frame ha d⟩

/-- A scroll, in the words of the statements (R165, R167, R176). -/
theorem scrolled_scroll (hg : descriptorOk g) (bg : Pixel) (d : Device) :
    Scrolled p g bg d.mem ((scrollAccesses p g bg d.mem).foldl replayAccess d).mem := by
  refine ⟨fun col row x y hc hr hx hy k hk => ?_, fun col x y hc hx hy k hk => ?_,
    fun a ha => read?_scroll_frame hg ha bg d.mem d⟩
  · rw [read?_scroll_shifted hg (cell_lt hc hx) (cell_lt (by omega) hy) hk, ← byteOf_read32 _ _ _ hk, Nat.add_right_comm,
      ← Nat.succ_mul]
    rfl
  · have := lastRow_add (p := p) hg
    exact read?_scroll_cleared hg (cell_lt hc hx) (Nat.le_add_right _ _) (by omega) hk bg d.mem d

/-! ### A configured block with its cursor on a cell -/

theorem AtCell.curH_eq {s : State} {k r : Nat} (h : AtCell s k r) : BitVec.ofNat 16 (k * cw s.params) = s.curH := by
  rw [← h.curH]; simp

theorem AtCell.curV_eq {s : State} {k r : Nat} (h : AtCell s k r) : BitVec.ofNat 16 (r * ch s.params) = s.curV := by
  rw [← h.curV]; simp

/-- The device does not matter to where the cursor stands. -/
theorem AtCell.setDevice {s : State} {k r : Nat} (h : AtCell s k r) (d : Device) : AtCell (s.setDevice d) k r :=
  ⟨h.configured, h.descriptor, h.column, h.row, h.curH, h.curV⟩

/-- The cursor of a completed command stands on the cell it was set to (R25, R27). -/
theorem AtCell.doneAt {s : State} {k r k' r' : Nat} {d : Device} (h : AtCell s k r) (hk : k' < gridW s.params s.desc)
    (hr : r' < gridH s.params s.desc) : AtCell (doneAt s (k' * cw s.params) (r' * ch s.params) d) k' r' where
  configured := h.configured
  descriptor := h.descriptor
  column := hk
  row := hr
  curH := by
    show (BitVec.ofNat 16 _).toNat = _
    rw [BitVec.toNat_ofNat, Nat.mod_eq_of_lt (col_lt_2_16 _ (Nat.le_of_lt hk))]; rfl
  curV := by
    show (BitVec.ofNat 16 _).toNat = _
    rw [BitVec.toNat_ofNat, Nat.mod_eq_of_lt (row_lt_2_16 _ (Nat.le_of_lt hr))]; rfl

theorem AtCell.doneAt_zero {s : State} {k r r' : Nat} {d : Device} (h : AtCell s k r) (hr : r' < gridH s.params s.desc) :
    AtCell (Machine.doneAt s 0 (r' * ch s.params) d) 0 r' := by
  have := h.doneAt (d := d) (k' := 0) (gridW_pos h.descriptor) hr
  rwa [Nat.zero_mul] at this

/-- A command that leaves the column alone. -/
theorem AtCell.doneAt_column {s : State} {k r : Nat} (h : AtCell s k r) (v : Nat) (d : Device) :
    Machine.doneAt s (k * cw s.params) v d = ((s.setDevice d).setCurV v).respond .ok 0#24 :=
  congrArg (fun x => (State.setCurV { s.setDevice d with curH := x } v).respond .ok 0#24) h.curH_eq

/-- A command that leaves the row alone. -/
theorem AtCell.doneAt_row {s : State} {k r : Nat} (h : AtCell s k r) (x : Nat) (d : Device) :
    Machine.doneAt s x (r * ch s.params) d = ((s.setDevice d).setCurH x).respond .ok 0#24 :=
  congrArg (fun v => State.respond { (s.setDevice d).setCurH x with curV := v } .ok 0#24) h.curV_eq

/-- The advance from a column that is not the last (R168). -/
theorem AtCell.advance {s : State} {k r : Nat} (h : AtCell s k r) (hk : k + 1 < gridW s.params s.desc) :
    advanceCursor s = .next (s.setCurH ((k + 1) * cw s.params)) := advanceCursor_of_lt h.curH hk

/-- The advance from the last column of a row that is not the last: the line wrap (R169). -/
theorem AtCell.advance_wrap {s : State} {k r : Nat} (h : AtCell s k r) (hk : k + 1 = gridW s.params s.desc)
    (hr : r + 1 < gridH s.params s.desc) :
    advanceCursor s = .next ((s.setCurH 0).setCurV ((r + 1) * ch s.params)) := by
  rw [advanceCursor_of_last h.curH hk, h.curV, ← Nat.succ_mul]
  exact scrollCheck_of_fits (State.setCurV_toNat _ _ (row_lt_2_16 _ (Nat.le_of_lt hr))) hr

/-- The advance from the last cell of the grid: a scroll (R168). -/
theorem AtCell.advance_scroll {s : State} {k r : Nat} (h : AtCell s k r) (hk : k + 1 = gridW s.params s.desc)
    (hr : r + 1 = gridH s.params s.desc) :
    advanceCursor s = scroll ((s.setCurH 0).setCurV ((r + 1) * ch s.params)) := by
  rw [advanceCursor_of_last h.curH hk, h.curV, ← Nat.succ_mul]
  exact scrollCheck_of_below (State.setCurV_toNat _ _ (row_lt_2_16 _ (Nat.le_of_eq hr))) (Nat.le_of_eq hr.symm)

/-- PUTC of a printable code blits and advances (R168). -/
theorem execPutc_eq {s : State} {c : Byte} {k r : Nat} (h : AtCell s k r) (hc : printable c) :
    execPutc c s = andThen (advanceCursor (s.setDevice
      ((paintAccesses s.desc (k * cw s.params) (r * ch s.params) (cw s.params) (ch s.params) fun y x =>
        bitColor (activeColors s) (glyphBit s.params c y x)).foldl replayAccess s.dev))) respondOk := by
  rw [execPutc, ifConfigured_of_true h.configured, if_pos hc, onDevice_eq (blitGlyph_eq h.descriptor _ _ _ _ _),
    h.curH, h.curV]

/-- A scroll that ends a command, from the last row (R166, R167). -/
theorem scroll_respondOk {s : State} {r : Nat} (hg : descriptorOk s.desc) (hr : r + 1 = gridH s.params s.desc) (v : Nat) :
    andThen (scroll (s.setCurV v)) respondOk = .next (doneAt s 0 (r * ch s.params)
      ((scrollAccesses s.params s.desc (activeColors s).bg s.dev.mem).foldl replayAccess s.dev)) := by
  rw [scroll_eq (by exact hg), andThen_next]
  simp only [State.setCurV_params, State.setCurV_desc, ← hr, Nat.add_sub_cancel]
  rfl

/-! ### What an access keeps -/

/-- A write of an aligned word inside the address space keeps the port's invariant. -/
theorem DeviceOk.write {d : Device} (hd : DeviceOk d) {a : Nat} (ha : a % 4 = 0) (hs : inSpace a) (w : PixelWord) :
    DeviceOk (replayAccess d (.write a w)) where
  canonical := Memory.wf_write32 hd.canonical hs w
  fromHistory := by
    show Memory.write32 d.mem a w = Memory.write32 (historyMem d.trace) a w
    rw [← hd.fromHistory]
  reads := hd.reads
  aligned := fun acc hm => by
    rcases List.mem_cons.1 hm with rfl | hm
    exacts [⟨ha, hs⟩, hd.aligned acc hm]

/-- A read of an aligned word inside the address space that gives what memory holds keeps the port's invariant. -/
theorem DeviceOk.read {d : Device} (hd : DeviceOk d) {a : Nat} (ha : a % 4 = 0) (hs : inSpace a) :
    DeviceOk (replayAccess d (.read a (Memory.read32 d.mem a))) where
  canonical := hd.canonical
  fromHistory := hd.fromHistory
  reads := ⟨by rw [← hd.fromHistory], hd.reads⟩
  aligned := fun acc hm => by
    rcases List.mem_cons.1 hm with rfl | hm
    exacts [⟨ha, hs⟩, hd.aligned acc hm]

/-- Performing again the accesses of a consistent history gives the memory of that history. -/
theorem historyMem_append (accs earlier : List Access) :
    historyMem (accs.reverse ++ earlier) =
      (accs.foldl replayAccess { mem := historyMem earlier, trace := earlier }).mem := by
  induction accs using List.reverseRecOn with
  | nil => rfl
  | append_singleton accs acc ih =>
    rw [List.reverse_append, List.foldl_append]
    cases acc <;> simp [historyMem, ih]

/-- What holds of a history holds of its earlier part: so of a command cut short (R262). -/
theorem DeviceOk.take {d : Device} {accs : List Access} (h : DeviceOk (accs.foldl replayAccess d)) (hd : DeviceOk d)
    (n : Nat) : DeviceOk ((accs.take n).foldl replayAccess d) := by
  have ht := replay_trace accs d
  have suffix : (accs.drop n).reverse ++ ((accs.take n).reverse ++ d.trace) = accs.reverse ++ d.trace := by
    rw [← List.append_assoc, ← List.reverse_append, List.take_append_drop]
  have hr := h.reads
  have ha := h.aligned
  rw [ht, ← suffix] at hr ha
  have drop : ∀ l r : List Access, readsConsistent (l ++ r) → readsConsistent r := by
    intro l r
    induction l with
    | nil => exact id
    | cons acc l ih => cases acc <;> intro h'; exacts [ih h'.2, ih h']
  have al : ∀ acc ∈ (accs.take n).reverse ++ d.trace, acc.addr % 4 = 0 ∧ inSpace acc.addr :=
    fun acc hm => ha acc (List.mem_append_right _ hm)
  have e : (List.foldl replayAccess d (accs.take n)).mem = historyMem ((accs.take n).reverse ++ d.trace) := by
    rw [historyMem_append, ← hd.fromHistory]
  refine ⟨?_, by rw [replay_trace]; exact e, by rw [replay_trace]; exact drop _ _ hr, by rw [replay_trace]; exact al⟩
  rw [e]
  clear e hr suffix ha ht h
  generalize (accs.take n).reverse ++ d.trace = l at al
  induction l with
  | nil => exact ⟨List.Pairwise.nil, fun _ hc => absurd hc List.not_mem_nil⟩
  | cons acc l ih =>
    have := ih fun a hm => al a (List.mem_cons_of_mem _ hm)
    cases acc with
    | read a w => exact this
    | write a w => exact Memory.wf_write32 this (al _ List.mem_cons_self).2 w

end Sys2Proof.Machine
end

