-- ==== Sys2Proof/Laws/Access.lean ====
section
/-! SUPPORT. What a device operation that completes has done, with no condition on the descriptor: some accesses, each
inside the address space and at the address of a visible pixel; and what such operations keep. -/

namespace Sys2Proof.Machine

/-- An access inside the address space, at the address of a visible pixel (R50, R69). -/
def atVisible (g : Descriptor) (acc : Access) : Prop :=
  inSpace acc.addr ∧ ∃ h v, visible g h v ∧ acc.addr = pixAddr g h v

/-- `d'` is `d` after some accesses at visible pixels. -/
def Accessed (g : Descriptor) (d d' : Device) : Prop :=
  ∃ accs : List Access, d' = accs.foldl replayAccess d ∧ ∀ acc ∈ accs, atVisible g acc

variable {p : Params} {g : Descriptor}

theorem Accessed.refl (d : Device) : Accessed g d d := ⟨[], rfl, fun _ h => absurd h List.not_mem_nil⟩

theorem Accessed.trans {d d' d'' : Device} (h : Accessed g d d') (h' : Accessed g d' d'') : Accessed g d d'' := by
  obtain ⟨a, rfl, ha⟩ := h
  obtain ⟨b, rfl, hb⟩ := h'
  exact ⟨a ++ b, by rw [List.foldl_append], fun acc hm => (List.mem_append.1 hm).elim (ha acc) (hb acc)⟩

theorem Accessed.one {d : Device} {acc : Access} (h : atVisible g acc) : Accessed g d (replayAccess d acc) :=
  ⟨[acc], rfl, fun a hm => by rw [List.mem_singleton.1 hm]; exact h⟩

/-- The history grows. -/
theorem Accessed.trace {d d' : Device} (h : Accessed g d d') :
    ∃ new, d'.trace = new ++ d.trace ∧ ∀ acc ∈ new, atVisible g acc := by
  obtain ⟨accs, rfl, ha⟩ := h
  exact ⟨accs.reverse, replay_trace _ _, fun acc hm => ha acc (List.mem_reverse.1 hm)⟩

/-- Accesses inside the address space keep memory canonical. -/
theorem wf_replay {accs : List Access} (ha : ∀ acc ∈ accs, inSpace acc.addr) {d : Device} (hd : Memory.wf d.mem) :
    Memory.wf (accs.foldl replayAccess d).mem := by
  induction accs generalizing d with
  | nil => exact hd
  | cons acc accs ih =>
    refine ih (fun a hm => ha a (List.mem_cons_of_mem _ hm)) ?_
    cases acc with
    | read a w => exact hd
    | write a w => exact Memory.wf_write32 hd (ha _ List.mem_cons_self) w

theorem forUp_accessed {n : Nat} {body : Nat → Device → Except Fault Device} {d d' : Device}
    (hs : ∀ k d1 d2, k < n → body k d1 = .ok d2 → Accessed g d1 d2) (h : forUp n body d = .ok d') : Accessed g d d' :=
  forUp_keeps (fun d' => Accessed g d d') (fun k d1 d2 hk h1 e => h1.trans (hs k d1 d2 hk e)) h (.refl d)

theorem drawPixelIfVisible_accessed {h v : Nat} {q : Pixel} {d d' : Device} (e : drawPixelIfVisible g h v q d = .ok d') :
    Accessed g d d' := by
  rcases drawPixelIfVisible_eq_ok e with ⟨hv, hs, rfl⟩ | ⟨-, rfl⟩
  exacts [.one ⟨hs, h, v, hv, rfl⟩, .refl _]

theorem paint_accessed {h0 v0 w h : Nat} {color : Nat → Nat → Pixel} {d d' : Device}
    (e : paint g h0 v0 w h color d = .ok d') : Accessed g d d' :=
  forUp_accessed (fun _ _ _ _ e => forUp_accessed (fun _ _ _ _ e => drawPixelIfVisible_accessed e) e) e

/-- All a raw copy that completes can do (R122). -/
theorem copyOnePixel_eq_ok {dh dv sh sv : Nat} {d d' : Device} (e : copyOnePixel p g dh dv sh sv d = .ok d') :
    inGrid p g sh sv ∧ inGrid p g dh dv ∧ inSpace (pixAddr g sh sv) ∧ inSpace (pixAddr g dh dv) ∧
      d' = (copyAccesses g d.mem dh dv sh sv).foldl replayAccess d := by
  unfold copyOnePixel at e
  split at e
  · rename_i hg
    cases er : memRead (pixAddr g sh sv) d with
    | error f => rw [er] at e; exact absurd e (by simp)
    | ok r =>
      obtain ⟨w, d1⟩ := r
      rw [er] at e
      obtain ⟨hs, rfl, rfl⟩ := memRead_eq_ok.1 er
      obtain ⟨hd, rfl⟩ := memWrite_eq_ok.1 e
      exact ⟨hg.1, hg.2, hs, hd, rfl⟩
  · exact absurd e (by simp)

theorem copyOnePixel_accessed {dh dv sh sv : Nat} {d d' : Device} (e : copyOnePixel p g dh dv sh sv d = .ok d') :
    Accessed g d d' := by
  obtain ⟨h1, h2, h3, h4, rfl⟩ := copyOnePixel_eq_ok e
  refine ⟨_, rfl, fun acc hm => ?_⟩
  rcases List.mem_cons.1 hm with rfl | hm
  · exact ⟨h3, _, _, visible_of_inGrid h1, rfl⟩
  · rw [List.mem_singleton.1 hm]; exact ⟨h4, _, _, visible_of_inGrid h2, rfl⟩

theorem shiftRowsUp_accessed {d d' : Device} (e : shiftRowsUp p g d = .ok d') : Accessed g d d' :=
  forUp_accessed (fun _ _ _ _ e => forUp_accessed (fun _ _ _ _ e => forUp_accessed (fun _ _ _ _ e =>
    forUp_accessed (fun _ _ _ _ e => copyOnePixel_accessed e) e) e) e) e

theorem clearLastRow_accessed {bg : Pixel} {d d' : Device} (e : clearLastRow p g bg d = .ok d') : Accessed g d d' :=
  forUp_accessed (fun _ _ _ _ e => paint_accessed e) e

/-! ### Completion: whether an operation completes depends on neither the colours drawn nor what the device holds -/

theorem forUp_completes {n : Nat} {body body' : Nat → Device → Except Fault Device}
    {d e : Device} (h : forUp n body d = .ok e) (d' : Device)
    (hs : ∀ k d d' e, k < n → body k d = .ok e → ∃ e', body' k d' = .ok e') : ∃ e', forUp n body' d' = .ok e' := by
  induction n generalizing e with
  | zero => exact ⟨d', rfl⟩
  | succ n ih =>
    rw [forUp] at h
    cases e1 : forUp n body d with
    | error f => rw [e1] at h; exact absurd h (by simp)
    | ok d1 =>
      rw [e1] at h
      obtain ⟨d2, e2⟩ := ih e1 fun k d d' e hk => hs k d d' e (by omega)
      rw [forUp, e2]
      exact hs n d1 d2 e (by omega) h

theorem drawPixelIfVisible_completes {h v : Nat} {q : Pixel} {d e : Device} (hd : drawPixelIfVisible g h v q d = .ok e)
    (q' : Pixel) (d' : Device) : ∃ e', drawPixelIfVisible g h v q' d' = .ok e' := by
  rw [drawPixelIfVisible]
  rcases drawPixelIfVisible_eq_ok hd with ⟨hv, hs, -⟩ | ⟨hv, -⟩
  · rw [if_pos hv, memWrite_eq hs]; exact ⟨_, rfl⟩
  · rw [if_neg hv]; exact ⟨_, rfl⟩

theorem paint_completes {h0 v0 w h : Nat} {color : Nat → Nat → Pixel} {d e : Device}
    (hd : paint g h0 v0 w h color d = .ok e) (color' : Nat → Nat → Pixel) (d' : Device) :
    ∃ e', paint g h0 v0 w h color' d' = .ok e' :=
  forUp_completes hd d' fun _ _ d' _ _ hd => forUp_completes hd d' fun _ _ d' _ _ hd => drawPixelIfVisible_completes hd _ d'

theorem copyOnePixel_completes {dh dv sh sv : Nat} {d e : Device} (hd : copyOnePixel p g dh dv sh sv d = .ok e)
    (d' : Device) : ∃ e', copyOnePixel p g dh dv sh sv d' = .ok e' := by
  obtain ⟨h1, h2, h3, h4, -⟩ := copyOnePixel_eq_ok hd
  rw [copyOnePixel, if_pos ⟨h1, h2⟩, memRead_eq h3]
  exact ⟨_, memWrite_eq h4 _ _⟩

theorem shiftRowsUp_completes {d e : Device} (hd : shiftRowsUp p g d = .ok e) (d' : Device) :
    ∃ e', shiftRowsUp p g d' = .ok e' :=
  forUp_completes hd d' fun _ _ d' _ _ hd => forUp_completes hd d' fun _ _ d' _ _ hd => forUp_completes hd d'
    fun _ _ d' _ _ hd => forUp_completes hd d' fun _ _ d' _ _ hd => copyOnePixel_completes hd d'

theorem clearLastRow_completes {bg : Pixel} {d e : Device} (hd : clearLastRow p g bg d = .ok e) (bg' : Pixel)
    (d' : Device) : ∃ e', clearLastRow p g bg' d' = .ok e' :=
  forUp_completes hd d' fun _ _ d' _ _ hd => paint_completes hd _ d'

/-! ### Stops -/

/-- A loop stops only where a round does, for the same reason. -/
theorem forUp_error {n : Nat} {body : Nat → Device → Except Fault Device} {d : Device} {f : Fault}
    (h : forUp n body d = .error f) : ∃ k d', k < n ∧ body k d' = .error f := by
  induction n with
  | zero => exact absurd h (by simp [forUp])
  | succ n ih =>
    rw [forUp] at h
    cases e : forUp n body d with
    | error f' =>
      rw [e] at h; cases h
      obtain ⟨k, d', hk, e'⟩ := ih e
      exact ⟨k, d', by omega, e'⟩
    | ok d1 => rw [e] at h; exact ⟨n, d1, by omega, h⟩

theorem memWrite_error {a : Nat} {w : PixelWord} {d : Device} {f : Fault} (h : memWrite a w d = .error f) :
    f = .addressOutOfSpace := by
  unfold memWrite at h; split at h <;> cases h; rfl

theorem drawPixelIfVisible_error {h v : Nat} {q : Pixel} {d : Device} {f : Fault}
    (e : drawPixelIfVisible g h v q d = .error f) : f = .addressOutOfSpace := by
  unfold drawPixelIfVisible at e; split at e
  exacts [memWrite_error e, absurd e (by simp)]

theorem paint_error {h0 v0 w h : Nat} {color : Nat → Nat → Pixel} {d : Device} {f : Fault}
    (e : paint g h0 v0 w h color d = .error f) : f = .addressOutOfSpace := by
  obtain ⟨_, _, -, e⟩ := forUp_error e
  obtain ⟨_, _, -, e⟩ := forUp_error e
  exact drawPixelIfVisible_error e

/-- A raw copy inside the grid does not raise the internal fault (R247). -/
theorem copyOnePixel_error {dh dv sh sv : Nat} (hs : inGrid p g sh sv) (hd : inGrid p g dh dv) {d : Device} {f : Fault}
    (e : copyOnePixel p g dh dv sh sv d = .error f) : f = .addressOutOfSpace := by
  rw [copyOnePixel, if_pos ⟨hs, hd⟩] at e
  unfold memRead at e
  split at e
  · rename_i heq
    split at heq
    · cases heq; exact memWrite_error e
    · cases heq
  · rename_i heq
    split at heq
    · cases heq
    · cases heq; cases e; rfl

/-- The scroll's copies are all inside the grid (R161). -/
theorem shiftRowsUp_error {d : Device} {f : Fault} (e : shiftRowsUp p g d = .error f) : f = .addressOutOfSpace := by
  obtain ⟨row, _, hrow, e⟩ := forUp_error e
  obtain ⟨col, _, hcol, e⟩ := forUp_error e
  obtain ⟨y, _, hy, e⟩ := forUp_error e
  obtain ⟨x, _, hx, e⟩ := forUp_error e
  exact copyOnePixel_error (inGrid_cell hcol (by omega) hx hy) (inGrid_cell hcol (by omega) hx hy) e

theorem clearLastRow_error {bg : Pixel} {d : Device} {f : Fault} (e : clearLastRow p g bg d = .error f) :
    f = .addressOutOfSpace := by
  obtain ⟨_, _, -, e⟩ := forUp_error e
  exact paint_error e

/-! ### What completed operations keep of the port's invariant and of the screen -/

/-- A draw under a descriptor INIT accepts keeps the port's invariant. -/
theorem drawPixelIfVisible_deviceOk (hg : descriptorOk g) {h v : Nat} {q : Pixel} {d d' : Device} (hd : DeviceOk d)
    (e : drawPixelIfVisible g h v q d = .ok d') : DeviceOk d' := by
  rcases drawPixelIfVisible_eq_ok e with ⟨-, hs, rfl⟩ | ⟨-, rfl⟩
  exacts [hd.write (pixAddr_aligned hg _ _) hs _, hd]

theorem paint_deviceOk (hg : descriptorOk g) {h0 v0 w h : Nat} {color : Nat → Nat → Pixel} {d d' : Device}
    (hd : DeviceOk d) (e : paint g h0 v0 w h color d = .ok d') : DeviceOk d' :=
  forUp_keeps DeviceOk (fun _ _ _ _ hd e =>
    forUp_keeps DeviceOk (fun _ _ _ _ hd e => drawPixelIfVisible_deviceOk hg hd e) e hd) e hd

theorem copyOnePixel_deviceOk (hg : descriptorOk g) {dh dv sh sv : Nat} {d d' : Device} (hd : DeviceOk d)
    (e : copyOnePixel p g dh dv sh sv d = .ok d') : DeviceOk d' := by
  obtain ⟨-, -, h3, h4, rfl⟩ := copyOnePixel_eq_ok e
  exact (hd.read (pixAddr_aligned hg _ _) h3).write (pixAddr_aligned hg _ _) h4 _

theorem shiftRowsUp_deviceOk (hg : descriptorOk g) {d d' : Device} (hd : DeviceOk d) (e : shiftRowsUp p g d = .ok d') :
    DeviceOk d' :=
  forUp_keeps DeviceOk (fun _ _ _ _ hd e => forUp_keeps DeviceOk (fun _ _ _ _ hd e => forUp_keeps DeviceOk
    (fun _ _ _ _ hd e => forUp_keeps DeviceOk (fun _ _ _ _ hd e => copyOnePixel_deviceOk hg hd e) e hd) e hd) e hd) e hd

theorem clearLastRow_deviceOk (hg : descriptorOk g) {bg : Pixel} {d d' : Device} (hd : DeviceOk d)
    (e : clearLastRow p g bg d = .ok d') : DeviceOk d' :=
  forUp_keeps DeviceOk (fun _ _ _ _ hd e => paint_deviceOk hg hd e) e hd

/-- A write of a word with reserved byte 0 to a visible pixel keeps the screen written (R67, R107). -/
theorem ScreenWritten.write (hg : descriptorOk g) {m : Memory} (hm : ScreenWritten g m) {h v : Nat} (hv : visible g h v)
    {w : PixelWord} (hw : byteOf w 3 = 0#8) : ScreenWritten g (Memory.write32 m (pixAddr g h v) w) := by
  intro h' v' hv'
  obtain ⟨h1, h2⟩ := hm h' v' hv'
  refine ⟨fun i hi => ?_, ?_⟩
  · rw [Memory.read?_write32]; split
    exacts [rfl, h1 i hi]
  · rw [Memory.read?_write32]; split
    · rename_i hx
      obtain ⟨rfl, rfl⟩ := pixAddr_overlap hg hv hv' hx.1 hx.2 (Nat.le_add_right _ _) (by omega)
      rw [Nat.add_sub_cancel_left, hw]
    · exact h2

theorem drawPixelIfVisible_screen (hg : descriptorOk g) {h v : Nat} {q : Pixel} {d d' : Device}
    (hm : ScreenWritten g d.mem) (e : drawPixelIfVisible g h v q d = .ok d') : ScreenWritten g d'.mem := by
  rcases drawPixelIfVisible_eq_ok e with ⟨hv, -, rfl⟩ | ⟨-, rfl⟩
  exacts [hm.write hg hv (byteOf_encodePixel_three _ _), hm]

theorem paint_screen (hg : descriptorOk g) {h0 v0 w h : Nat} {color : Nat → Nat → Pixel} {d d' : Device}
    (hm : ScreenWritten g d.mem) (e : paint g h0 v0 w h color d = .ok d') : ScreenWritten g d'.mem :=
  forUp_keeps (fun d => ScreenWritten g d.mem) (fun _ _ _ _ hm e =>
    forUp_keeps (fun d => ScreenWritten g d.mem) (fun _ _ _ _ hm e => drawPixelIfVisible_screen hg hm e) e hm) e hm

/-- A raw copy keeps the reserved byte, and so keeps it 0 on a written screen (R106, R122). -/
theorem copyOnePixel_screen (hg : descriptorOk g) {dh dv sh sv : Nat} {d d' : Device} (hm : ScreenWritten g d.mem)
    (e : copyOnePixel p g dh dv sh sv d = .ok d') : ScreenWritten g d'.mem := by
  obtain ⟨h1, h2, -, -, rfl⟩ := copyOnePixel_eq_ok e
  refine ScreenWritten.write hg hm (visible_of_inGrid h2) ?_
  rw [byteOf_read32 _ _ _ (by omega), Memory.read, (hm _ _ (visible_of_inGrid h1)).2]; rfl

theorem shiftRowsUp_screen (hg : descriptorOk g) {d d' : Device} (hm : ScreenWritten g d.mem)
    (e : shiftRowsUp p g d = .ok d') : ScreenWritten g d'.mem :=
  let P := fun d : Device => ScreenWritten g d.mem
  forUp_keeps P (fun _ _ _ _ hm e => forUp_keeps P (fun _ _ _ _ hm e => forUp_keeps P
    (fun _ _ _ _ hm e => forUp_keeps P (fun _ _ _ _ hm e => copyOnePixel_screen hg hm e) e hm) e hm) e hm) e hm

theorem clearLastRow_screen (hg : descriptorOk g) {bg : Pixel} {d d' : Device} (hm : ScreenWritten g d.mem)
    (e : clearLastRow p g bg d = .ok d') : ScreenWritten g d'.mem :=
  forUp_keeps (fun d => ScreenWritten g d.mem) (fun _ _ _ _ hm e => paint_screen hg hm e) e hm

/-- A painted screen is written, with reserved bytes 0: what INIT leaves (R67). -/
theorem fillScreen_screen (hg : descriptorOk g) {q : Pixel} {d d' : Device} (e : fillScreen g q d = .ok d') :
    ScreenWritten g d'.mem := by
  rw [fillScreen_eq hg] at e
  cases e
  intro h v hv
  have key : ∀ k, k < 4 → Memory.read? _ (pixAddr g h v + k) = some (byteOf (encodePixel g.fmt q) k) := fun k hk => by
    have := read?_paint hg (h0 := 0) (v0 := 0) (color := fun _ _ => q) hv.2 hv.1 (by simpa using hv) hk d
    simpa using this
  exact ⟨fun i hi => by rw [key i hi]; rfl, by rw [key 3 (by omega), byteOf_encodePixel_three]⟩

end Sys2Proof.Machine
end

