-- ==== Sys2Proof/Laws/Decode.lean ====
section
/-! SUPPORT. The fields of the words that `encode` builds: for each format of 30_encoding.md rule R72, the opcode field,
the reserved bits and the operand fields of its word. -/

namespace Sys2Proof

/-- The three channels of a packed pixel (00_scope.md rule R13). -/
theorem pix_rgb24 (p : Pixel) : pix (rgb24 p) = p := by
  obtain ⟨r, g, b⟩ := p
  simp only [pix, rgb24, Pixel.mk.injEq]
  refine ⟨?_, ?_, BitVec.extractLsb'_append_eq_right⟩
  · rw [BitVec.extractLsb'_append_eq_of_le (by omega)]; exact BitVec.extractLsb'_append_eq_left
  · rw [BitVec.extractLsb'_append_eq_of_le (by omega)]; exact BitVec.extractLsb'_append_eq_right

/-- A packed pixel is made of its three channels (00_scope.md rule R13). -/
theorem rgb24_pix (v : Rgb24) : rgb24 (pix v) = v := by
  simp only [rgb24, pix]
  apply BitVec.eq_of_getLsbD_eq
  intro i hi
  simp only [BitVec.getLsbD_append, BitVec.getLsbD_extractLsb']
  repeat' split
  all_goals first | omega | (rw [decide_eq_true (by omega), Bool.true_and]; congr 1; omega)

theorem fmtOfBit_fmtBit (f : Fmt) : fmtOfBit ((fmtBit f).getLsbD 0) = f := by cases f <;> rfl

section formats

variable (o c : Byte) (f : BitVec 1) (st h v : HalfWord) (q : Rgb24)

/-- Format N. -/
theorem formatN_fields : opcodeField (o ++ 0#56 : Word64) = o ∧ (o ++ 0#56 : Word64) &&& reservedMask .n = 0#64 := by
  refine ⟨BitVec.extractLsb'_append_eq_left, ?_⟩
  rw [show reservedMask .n = (0#8 ++ BitVec.allOnes 56 : Word64) from rfl, BitVec.and_append]; simp

/-- Format C. -/
theorem formatC_fields : opcodeField (o ++ 0#48 ++ c : Word64) = o ∧ (o ++ 0#48 ++ c : Word64) &&& reservedMask .c = 0#64 ∧
    (o ++ 0#48 ++ c : Word64).extractLsb' 0 8 = c := by
  refine ⟨?_, ?_, BitVec.extractLsb'_append_eq_right⟩
  · rw [opcodeField, BitVec.extractLsb'_append_eq_of_le (by omega)]; exact BitVec.extractLsb'_append_eq_left
  · rw [show reservedMask .c = (0#8 ++ BitVec.allOnes 48 ++ 0#8 : Word64) from rfl, BitVec.and_append, BitVec.and_append]
    simp

/-- Format F. -/
theorem formatF_fields : opcodeField (o ++ 0#32 ++ q : Word64) = o ∧ (o ++ 0#32 ++ q : Word64) &&& reservedMask .f = 0#64 ∧
    (o ++ 0#32 ++ q : Word64).extractLsb' 0 24 = q := by
  refine ⟨?_, ?_, BitVec.extractLsb'_append_eq_right⟩
  · rw [opcodeField, BitVec.extractLsb'_append_eq_of_le (by omega)]; exact BitVec.extractLsb'_append_eq_left
  · rw [show reservedMask .f = (0#8 ++ BitVec.allOnes 32 ++ 0#24 : Word64) from rfl, BitVec.and_append, BitVec.and_append]
    simp

/-- Formats P and Q, the low 24 bits apart. -/
theorem formatP_fields : opcodeField (o ++ h ++ v ++ q : Word64) = o ∧ (o ++ h ++ v ++ q : Word64).extractLsb' 40 16 = h ∧
    (o ++ h ++ v ++ q : Word64).extractLsb' 24 16 = v ∧ (o ++ h ++ v ++ q : Word64).extractLsb' 0 24 = q := by
  refine ⟨?_, ?_, ?_, BitVec.extractLsb'_append_eq_right⟩
  · rw [opcodeField, BitVec.extractLsb'_append_eq_of_le (by omega), BitVec.extractLsb'_append_eq_of_le (by omega)]
    exact BitVec.extractLsb'_append_eq_left
  · rw [BitVec.extractLsb'_append_eq_of_le (by omega), BitVec.extractLsb'_append_eq_of_le (by omega)]
    exact BitVec.extractLsb'_append_eq_right
  · rw [BitVec.extractLsb'_append_eq_of_le (by omega)]; exact BitVec.extractLsb'_append_eq_right

/-- Format P has no reserved bits. -/
theorem formatP_reserved (w : Word64) : w &&& reservedMask .p = 0#64 := BitVec.and_zero

/-- Format Q's reserved bits are the low 24. -/
theorem formatQ_reserved : (o ++ h ++ v ++ 0#24 : Word64) &&& reservedMask .q = 0#64 := by
  rw [show reservedMask .q = (0#40 ++ BitVec.allOnes 24 : Word64) from rfl, BitVec.and_append]; simp

/-- Format I, word 0. -/
theorem formatI_fields (b : Word64) :
    opcodeField (o ++ 0#7 ++ f ++ st ++ h ++ v : Word64) = o ∧
    (o ++ 0#7 ++ f ++ st ++ h ++ v : Word64) &&& reservedMask .i = 0#64 ∧
    descriptorField (o ++ 0#7 ++ f ++ st ++ h ++ v : Word64) b =
      { fmt := fmtOfBit (f.getLsbD 0), stride := st, hres := h, vres := v, base := b } := by
  refine ⟨?_, ?_, ?_⟩
  · rw [opcodeField, BitVec.extractLsb'_append_eq_of_le (by omega), BitVec.extractLsb'_append_eq_of_le (by omega),
      BitVec.extractLsb'_append_eq_of_le (by omega), BitVec.extractLsb'_append_eq_of_le (by omega)]
    exact BitVec.extractLsb'_append_eq_left
  · rw [show reservedMask .i = (0#8 ++ BitVec.allOnes 7 ++ 0#1 ++ 0#16 ++ 0#16 ++ 0#16 : Word64) from rfl,
      BitVec.and_append, BitVec.and_append, BitVec.and_append, BitVec.and_append, BitVec.and_append]
    simp
  · simp only [descriptorField, Descriptor.mk.injEq, and_true]
    refine ⟨?_, ?_, ?_, BitVec.extractLsb'_append_eq_right⟩
    · simp only [BitVec.getLsbD_append, show ¬ (48 < 16) by omega, show ¬ (48 - 16 < 16) by omega,
        show ¬ (48 - 16 - 16 < 16) by omega, show 48 - 16 - 16 - 16 < 1 by omega, if_true, if_false]
    · rw [BitVec.extractLsb'_append_eq_of_le (by omega), BitVec.extractLsb'_append_eq_of_le (by omega)]
      exact BitVec.extractLsb'_append_eq_right
    · rw [BitVec.extractLsb'_append_eq_of_le (by omega)]; exact BitVec.extractLsb'_append_eq_right

end formats

/-- INIT is the one opcode that starts two words (R71). -/
theorem startsTwoWords_iff {w : Word64} : startsTwoWords w = true ↔ opcodeField w = 0x01#8 := decide_eq_true_iff

theorem startsTwoWords_eq_false {w : Word64} (h : (opcodeField w).toNat ≠ 0x01) : startsTwoWords w = false :=
  decide_eq_false fun e => h (by rw [e]; rfl)

/-- A decoding of a word with a defined opcode (R233 steps 1 and 2). -/
theorem decodePair_of_opcode {w0 w1 : Word64} {fmt : Format} {i : Instr} (hf : formatOf (opcodeField w0) = some fmt)
    (hi : commandOf w0 w1 = some i) (hm : w0 &&& reservedMask fmt = 0#64) : decodePair w0 w1 = .command i := by
  simp [decodePair, hf, hi, hm]

/-- The format and the command are both there or both absent: both are read from the opcode alone. -/
theorem commandOf_isSome (w0 w1 : Word64) : (commandOf w0 w1).isSome = (formatOf (opcodeField w0)).isSome := by
  unfold commandOf formatOf; split <;> simp_all

/-- A reserved bit set (R233 step 2). -/
theorem decodePair_of_reserved {w0 w1 : Word64} {fmt : Format} (hf : formatOf (opcodeField w0) = some fmt)
    (hm : w0 &&& reservedMask fmt ≠ 0#64) : decodePair w0 w1 = .malformed .reserved := by
  obtain ⟨i, hi⟩ := Option.isSome_iff_exists.1 ((commandOf_isSome w0 w1).trans (by rw [hf]; rfl))
  simp [decodePair, hf, hi, hm]

/-- A reserved opcode (R233 step 1). -/
theorem decodePair_of_no_format {w0 w1 : Word64} (hf : formatOf (opcodeField w0) = none) :
    decodePair w0 w1 = .malformed .opcode := by
  simp [decodePair, hf]

/-- All that a decoding to a command says (R233 steps 1 and 2). -/
theorem decodePair_eq_command {w0 w1 : Word64} {i : Instr} (h : decodePair w0 w1 = .command i) :
    ∃ fmt, formatOf (opcodeField w0) = some fmt ∧ commandOf w0 w1 = some i ∧ w0 &&& reservedMask fmt = 0#64 := by
  unfold decodePair at h
  split at h
  · rename_i fmt j hf hj
    split at h
    · rename_i hm; cases h; exact ⟨fmt, hf, hj, hm⟩
    · cases h
  · cases h

end Sys2Proof
end

