-- ==== Sys2Proof/Laws/Exec.lean ====
section
/-! SUPPORT. All that a command, a framed command and a step can do to the registers, said once: the inversion lemmas
that a proof about every command cites. -/

namespace Sys2Proof.Machine

variable {s t : State}

/-- Only the cursor and the device may differ. -/
structure SameRegisters (s t : State) : Prop where
  configured : t.configured = s.configured
  desc : t.desc = s.desc
  mode : t.mode = s.mode
  pending : t.pending = s.pending
  params : t.params = s.params
  input : t.input = s.input
  responses : t.responses = s.responses

theorem SameRegisters.refl (s : State) : SameRegisters s s := ⟨rfl, rfl, rfl, rfl, rfl, rfl, rfl⟩

theorem SameRegisters.trans {u : State} (h : SameRegisters s t) (h' : SameRegisters t u) : SameRegisters s u :=
  ⟨h'.configured.trans h.configured, h'.desc.trans h.desc, h'.mode.trans h.mode, h'.pending.trans h.pending,
    h'.params.trans h.params, h'.input.trans h.input, h'.responses.trans h.responses⟩

theorem SameRegisters.moved (s : State) (x v : Nat) (d : Device) :
    SameRegisters s (((s.setDevice d).setCurH x).setCurV v) := ⟨rfl, rfl, rfl, rfl, rfl, rfl, rfl⟩

/-- A scroll that completes: the shift, the clear, the re-anchored cursor (R167). -/
theorem scroll_eq_next (h : scroll s = .next t) :
    ∃ d1 d2, shiftRowsUp s.params s.desc s.dev = .ok d1 ∧
      clearLastRow s.params s.desc (activeColors s).bg d1 = .ok d2 ∧
      t = ((s.setDevice d2).setCurH 0).setCurV ((gridH s.params s.desc - 1) * ch s.params) := by
  obtain ⟨d1, e1, h⟩ := onDevice_eq_next.1 h
  obtain ⟨d2, e2, h⟩ := onDevice_eq_next.1 h
  cases h
  exact ⟨d1, d2, e1, e2, rfl⟩

/-- A scroll check that completes scrolls or does nothing (R162). -/
theorem scrollCheck_eq_next (h : scrollCheck s = .next t) : t = s ∨ scroll s = .next t := by
  unfold scrollCheck at h
  split at h
  · exact .inr h
  · cases h; exact .inl rfl

theorem scroll_sameRegisters (h : scroll s = .next t) : SameRegisters s t := by
  obtain ⟨_, _, -, -, rfl⟩ := scroll_eq_next h; exact .moved _ _ _ _

theorem scrollCheck_sameRegisters (h : scrollCheck s = .next t) : SameRegisters s t := by
  rcases scrollCheck_eq_next h with rfl | h
  exacts [.refl _, scroll_sameRegisters h]

theorem goDown_sameRegisters (h : goDown s = .next t) : SameRegisters s t :=
  have q := scrollCheck_sameRegisters h
  ⟨q.configured, q.desc, q.mode, q.pending, q.params, q.input, q.responses⟩

theorem goToLineStart_sameRegisters (h : goToLineStart s = .next t) : SameRegisters s t :=
  have q := scrollCheck_sameRegisters h
  ⟨q.configured, q.desc, q.mode, q.pending, q.params, q.input, q.responses⟩

theorem advanceCursor_sameRegisters (h : advanceCursor s = .next t) : SameRegisters s t := by
  unfold advanceCursor wrapIfFull at h
  split at h
  · have q := scrollCheck_sameRegisters h
    exact ⟨q.configured, q.desc, q.mode, q.pending, q.params, q.input, q.responses⟩
  · cases h; exact ⟨rfl, rfl, rfl, rfl, rfl, rfl, rfl⟩

theorem ifConfigured_eq_next {body : Result} (h : ifConfigured s body = .next t) :
    (s.configured = false ∧ t = s.reject .rejNotConfigured) ∨ (s.configured = true ∧ body = .next t) := by
  cases hc : s.configured with
  | false => rw [ifConfigured_of_false hc] at h; cases h; exact .inl ⟨rfl, rfl⟩
  | true => rw [ifConfigured_of_true hc] at h; exact .inr ⟨rfl, h⟩

/-- All that a command can do to the registers: it is rejected with no effect; it is an accepted INIT; it is a SETPANIC;
or it moves the cursor and accesses memory, and answers OK or, for a READPX alone, ABSENT. -/
inductive Answered (i : Instr) (s t : State) : Prop
  | rejected (cause : Status) (code : 0x80 ≤ cause.code.toNat) (after : t = s.reject cause)
  | constructed (d : Descriptor) (dev : Device) (is : i = .init d) (before : s.configured = false)
      (after : t = ((s.construct d).setDevice dev).respond .ok 0#24)
  | completed (u : State) (st : Status) (data : Rgb24) (same : SameRegisters s u) (before : s.configured = true)
      (status : st = .ok ∨ (st = .absent ∧ ∃ h v, i = .readpx h v))
      (answer : data ≠ 0#24 → st = .ok ∧ ∃ h v, i = .readpx h v) (after : t = u.respond st data)
  | panicked (is : i = .setpanic) (before : s.configured = true) (after : t = s.setPanicMode.respond .ok 0#24)

theorem answered_of_respondOk {i : Instr} {r : Result} (hr : ∀ u, r = .next u → SameRegisters s u)
    (hc : s.configured = true) (h : andThen r respondOk = .next t) : Answered i s t := by
  obtain ⟨u, e1, e2⟩ := andThen_eq_next.1 h
  cases e2
  exact .completed u .ok 0#24 (hr u e1) hc (.inl rfl) (fun h => absurd rfl h) rfl

theorem answered_of_onDevice {i : Instr} {op : Device → Except Fault Device} (hc : s.configured = true)
    (h : onDevice s op respondOk = .next t) : Answered i s t := by
  obtain ⟨d, -, e⟩ := onDevice_eq_next.1 h
  cases e
  exact .completed (s.setDevice d) .ok 0#24 ⟨rfl, rfl, rfl, rfl, rfl, rfl, rfl⟩ hc (.inl rfl) (fun h => absurd rfl h) rfl

theorem answered_of_ifConfigured {i : Instr} {body : Result} (h : ifConfigured s body = .next t)
    (hb : s.configured = true → body = .next t → Answered i s t) : Answered i s t := by
  rcases ifConfigured_eq_next h with ⟨-, rfl⟩ | ⟨hc, h⟩
  exacts [.rejected _ (by decide) rfl, hb hc h]

/-- The inversion lemma of `exec`. -/
theorem exec_answered {i : Instr} (h : exec i s = .next t) : Answered i s t := by
  cases i with
  | init d =>
    simp only [exec, execInit] at h
    split at h
    · cases h; exact .rejected _ (by decide) rfl
    · rename_i hc
      split at h
      · obtain ⟨dev, -, e⟩ := onDevice_eq_next.1 h
        cases e
        exact .constructed d dev rfl (by simpa using hc) rfl
      · cases h; exact .rejected _ (by decide) rfl
  | fill p => exact answered_of_ifConfigured h answered_of_onDevice
  | drawpx x y p => exact answered_of_ifConfigured h answered_of_onDevice
  | readpx x y =>
    refine answered_of_ifConfigured h fun hc h => ?_
    split at h <;> cases h
    · rename_i d _
      exact .completed (s.setDevice d) _ _ ⟨rfl, rfl, rfl, rfl, rfl, rfl, rfl⟩ hc (.inl rfl) (fun _ => ⟨rfl, _, _, rfl⟩) rfl
    · rename_i d _
      exact .completed (s.setDevice d) _ _ ⟨rfl, rfl, rfl, rfl, rfl, rfl, rfl⟩ hc (.inr ⟨rfl, _, _, rfl⟩)
        (fun h => absurd rfl h) rfl
  | putc c =>
    refine answered_of_ifConfigured h fun hc h => ?_
    split at h
    · obtain ⟨d, -, e⟩ := onDevice_eq_next.1 h
      exact answered_of_respondOk (r := advanceCursor (s.setDevice d)) (fun u e =>
        have q := advanceCursor_sameRegisters e
        ⟨q.configured, q.desc, q.mode, q.pending, q.params, q.input, q.responses⟩) hc e
    · cases h; exact .rejected _ (by decide) rfl
  | godown => exact answered_of_ifConfigured h (answered_of_respondOk fun _ => goDown_sameRegisters)
  | linestart => exact answered_of_ifConfigured h (answered_of_respondOk fun _ => goToLineStart_sameRegisters)
  | newline =>
    refine answered_of_ifConfigured h (answered_of_respondOk fun u e => ?_)
    obtain ⟨m, e1, e2⟩ := andThen_eq_next.1 e
    exact (goDown_sameRegisters e1).trans (goToLineStart_sameRegisters e2)
  | setpanic =>
    refine answered_of_ifConfigured h fun hc h => ?_
    cases h; exact .panicked rfl hc rfl

/-! ### Framed commands and steps -/

/-- All that a framed command can do: run its command, or be rejected as malformed (R233). -/
theorem runFramed_eq_next {w0 w1 : Word64} (h : runFramed w0 w1 s = .next t) :
    (∃ i, decodePair w0 w1 = .command i ∧ exec i s = .next t) ∨
      (∃ cause, decodePair w0 w1 = .malformed cause ∧ t = s.reject (malformedStatus cause)) := by
  unfold runFramed at h
  split at h
  · exact .inl ⟨_, ‹_›, h⟩
  · cases h; exact .inr ⟨_, ‹_›, rfl⟩

theorem State.setPending_of_none (h : s.pending = none) : s.setPending none = s := by
  cases s; cases h; rfl

/-- All that a word on the port can do: be held, or complete a command, which runs with PENDING empty (R34, R71). -/
theorem deliverWord_eq_next {w : Word64} (h : deliverWord w s = .next t) :
    (s.pending = none ∧ startsTwoWords w = true ∧ t = s.setPending (some w)) ∨
      (∃ w0 w1, (s.pending = none ∧ w0 = w ∧ w1 = 0#64 ∨ s.pending = some w0 ∧ w1 = w) ∧
        runFramed w0 w1 (s.setPending none) = .next t) := by
  unfold deliverWord at h
  split at h
  · rename_i w0 hp; exact .inr ⟨w0, w, .inr ⟨hp, rfl⟩, h⟩
  · rename_i hp
    split at h
    · cases h; exact .inl ⟨hp, ‹_›, rfl⟩
    · exact .inr ⟨w, 0#64, .inl ⟨hp, rfl, rfl⟩, by rw [State.setPending_of_none hp]; exact h⟩

/-- All that a step can do: nothing, where no input is left, or what the next input does. -/
theorem step_eq_next (h : step s = .next t) :
    (s.input = [] ∧ t = s) ∨ ∃ e rest, s.input = e :: rest ∧ takeEvent e (s.setInput rest) = .next t := by
  simp only [step, nextStep] at h
  split at h
  · cases h; exact .inl ⟨‹_›, rfl⟩
  · exact .inr ⟨_, _, ‹_›, h⟩

/-- A word at the front of the inputs is delivered. -/
theorem step_of_word {w : Word64} {rest : List Event} (h : s.input = .word w :: rest) :
    step s = deliverWord w (s.setInput rest) := by
  simp only [step, nextStep, h, takeEvent]

end Sys2Proof.Machine
end

