-- ==== Sys2Proof/Laws/PerInstr.lean ====
section
/-! SUPPORT. The statements made once for each command of Syntax.lean. `Framing`: the length of a command's encoding is
what the opcode field of its first word alone says (30_encoding.md rule R71). -/

namespace Sys2Proof.Laws.Framing

/-- The encoding of `i` is one word that does not announce a second, or two words of which the first does (R71). -/
def Statement (i : Instr) : Prop :=
  (∃ w, encode i = [w] ∧ startsTwoWords w = false) ∨ (∃ w0 w1, encode i = [w0, w1] ∧ startsTwoWords w0 = true)

/-- A word whose opcode field is not that of INIT is a command by itself. -/
theorem one_word {i : Instr} {w : Word64} {o : Byte} (he : encode i = [w]) (ho : opcodeField w = o)
    (hn : o.toNat ≠ 0x01) : Statement i := .inl ⟨w, he, startsTwoWords_eq_false (by rw [ho]; exact hn)⟩

theorem init (d : Descriptor) : Statement (.init d) := .inr ⟨_, _, rfl, startsTwoWords_iff.2 (formatI_fields _ _ _ _ _ d.base).1⟩
theorem fill (p : Pixel) : Statement (.fill p) := one_word rfl (formatF_fields 0x02#8 _).1 (by decide)
theorem drawpx (h v : HalfWord) (p : Pixel) : Statement (.drawpx h v p) := one_word rfl (formatP_fields 0x03#8 _ _ _).1 (by decide)
theorem readpx (h v : HalfWord) : Statement (.readpx h v) := one_word rfl (formatP_fields 0x04#8 _ _ _).1 (by decide)
theorem putc (code : Byte) : Statement (.putc code) := one_word rfl (formatC_fields 0x05#8 _).1 (by decide)
theorem godown : Statement .godown := one_word rfl (formatN_fields 0x06#8).1 (by decide)
theorem linestart : Statement .linestart := one_word rfl (formatN_fields 0x07#8).1 (by decide)
theorem newline : Statement .newline := one_word rfl (formatN_fields 0x08#8).1 (by decide)
theorem setpanic : Statement .setpanic := one_word rfl (formatN_fields 0x09#8).1 (by decide)

end Sys2Proof.Laws.Framing
end

