-- ==== Sys2Proof/Tests/Slice0.lean ====
section
/-! SUPPORT. Tests: the words, values and rejections of spec/95_test_vectors.md (each test names its vector or its rule),
one step at a time on small states; and, for every statement with hypotheses, a concrete state that meets them. -/

namespace Sys2Proof.Tests

open Sys2Proof Sys2Proof.Machine

/-! ### Fixtures (95_test_vectors.md section 0) -/

def normalColors : CharColors := { fg := ⟨0xAA#8, 0xAA#8, 0xAA#8⟩, bg := ⟨0x00#8, 0x00#8, 0x00#8⟩ }
def panicColors : CharColors := { fg := ⟨0xFF#8, 0xFF#8, 0xFF#8⟩, bg := ⟨0xAA#8, 0x00#8, 0x00#8⟩ }

/-- The palettes of the fixtures, with a cell of `w` by `h` pixels and a ROM. -/
def params (w : Fin 320) (h : Fin 200) (rom : List (BitVec 320)) : Params :=
  { cwLess1 := w, chLess1 := h, rom := rom, normal := normalColors, panic := panicColors }

def cfgA : Descriptor := { fmt := .bgr, stride := 648#16, hres := 640#16, vres := 400#16, base := 0x80000000#64 }
def cfgB : Descriptor := { fmt := .rgb, stride := 640#16, hres := 640#16, vres := 400#16, base := 0x10000000#64 }
def cfgC : Descriptor := { fmt := .rgb, stride := 644#16, hres := 644#16, vres := 410#16, base := 0x20000000#64 }

/-- A configured block with nothing written and no input. -/
def configured (p : Params) (g : Descriptor) (h v : HalfWord) (m : Mode) : State :=
  { configured := true, desc := g, curH := h, curV := v, mode := m, pending := none, params := p,
    dev := { mem := [], trace := [] }, input := [], responses := [] }

/-- A block right after reset, with the parameters of the fixtures. -/
def afterReset : State := { State.reset with params := params 7 15 [] }

/-- The 8 by 16 cell of the fixtures on a given screen, the cursor at (h, v). -/
def at8x16 (g : Descriptor) (h v : HalfWord) : State := configured (params 7 15 []) g h v .normal

/-- The state an outcome goes on with. -/
def after : Result → Option State
  | .next s => some s
  | .fault _ => none
  | .refused _ => none

def cursor (s : State) : HalfWord × HalfWord := (s.curH, s.curV)

/-- The four bytes at an address, where the block has written them. -/
def bytesAt (a : Nat) (s : State) : List (Option Byte) := (List.range 4).map fun k => Memory.read? s.dev.mem (a + k)

/-! ### WellFormed: each check refuses an ill-formed command -/

theorem test_smoke_putc_below : (Instr.putc 0x1F#8).wellFormed = false := by decide
theorem test_smoke_putc_above : (Instr.putc 0x7F#8).wellFormed = false := by decide
theorem test_smoke_init_resolution : (Instr.init { cfgB with hres := 319#16 }).wellFormed = false ∧
    (Instr.init { cfgB with vres := 1081#16 }).wellFormed = false := by decide
theorem test_smoke_init_stride : (Instr.init { cfgB with stride := 639#16 }).wellFormed = false := by decide
theorem test_smoke_init_base : (Instr.init { cfgB with base := 2#64 }).wellFormed = false ∧
    (Instr.init { cfgB with base := 0xFFFFFFFFFFF06004#64 }).wellFormed = false := by decide
theorem test_smoke_accepts : (Instr.init cfgA).wellFormed = true ∧ (Instr.putc 0x20#8).wellFormed = true := by decide

/-! ### Decoding: words written out from the spec's encodings (V-EN-1 to V-EN-8, and the examples of the rules) -/

theorem test_decode_init : decodeStream [0x0101028802800190#64, 0x0000000080000000#64] = .whole (.command (.init cfgA)) [] := by decide
theorem test_decode_init_rgb : decodeStream [0x010002840284019A#64, 0x0000000020000000#64] = .whole (.command (.init cfgC)) [] := by decide
theorem test_decode_fill : decodeStream [0x0200000000AA0000#64] = .whole (.command (.fill ⟨0xAA#8, 0x00#8, 0x00#8⟩)) [] := by decide
theorem test_decode_drawpx : decodeStream [0x0300050003123456#64] = .whole (.command (.drawpx 5#16 3#16 ⟨0x12#8, 0x34#8, 0x56#8⟩)) [] := by decide
theorem test_decode_readpx : decodeStream [0x0402800000000000#64] = .whole (.command (.readpx 640#16 0#16)) [] := by decide
theorem test_decode_putc : decodeStream [0x0500000000000041#64] = .whole (.command (.putc 0x41#8)) [] := by decide
theorem test_decode_godown : decodeStream [0x0600000000000000#64] = .whole (.command .godown) [] := by decide
theorem test_decode_linestart : decodeStream [0x0700000000000000#64] = .whole (.command .linestart) [] := by decide
theorem test_decode_newline : decodeStream [0x0800000000000000#64] = .whole (.command .newline) [] := by decide
theorem test_decode_setpanic : decodeStream [0x0900000000000000#64] = .whole (.command .setpanic) [] := by decide

/-- R71: INIT takes the next word whatever it is, and alone it is not whole. -/
theorem test_decode_init_framing : decodeStream [0x0101028802800190#64] = .incomplete ∧
    decodeStream [0x01FE000000000000#64, 0x0600000000000000#64, 0x0700000000000000#64] =
      .whole (.malformed .reserved) [0x0700000000000000#64] := by decide

/-- V-RJ-1, V-RJ-2, V-RJ-4, V-RJ-5, V-RJ-6, V-RJ-7. -/
theorem test_decode_malformed :
    decodePair 0x0000000000000000#64 0#64 = .malformed .opcode ∧ decodePair 0x0A00000000000000#64 0#64 = .malformed .opcode ∧
    decodePair 0x050000000000017F#64 0#64 = .malformed .reserved ∧ decodePair 0x0200000001102030#64 0#64 = .malformed .reserved ∧
    decodePair 0x0600000000000001#64 0#64 = .malformed .reserved ∧ decodePair 0x01FE000000000000#64 0#64 = .malformed .reserved := by
  decide

/-- The two fixed names of the host's checks, on the words of V-EN-1 and V-EN-7. -/
theorem test_decodeTableWord :
    decodeTableWord 128 0x00000000800000000101028802800190 = some (.init cfgA) ∧
    decodeTableWord 64 0x0500000000000041 = some (.putc 0x41#8) ∧ decodeTableWord 64 0x0A00000000000000 = none := by decide

theorem test_withFetchWord :
    step (afterReset.withFetchWord 64 0x0500000000000041) = exec (.putc 0x41#8) afterReset ∧
    step (afterReset.withFetchWord 64 0x0100000000000000) = exec (.init Descriptor.unset) afterReset := ⟨rfl, rfl⟩

/-! ### The converter and the address calculator (V-PF-1 to V-PF-7, R110; V-AD-1 to V-AD-5) -/

theorem test_encodePixel : encodePixel .rgb ⟨0x12#8, 0x34#8, 0x56#8⟩ = 0x00563412#32 ∧
    encodePixel .bgr ⟨0x12#8, 0x34#8, 0x56#8⟩ = 0x00123456#32 ∧ encodePixel .rgb ⟨0xFF#8, 0#8, 0#8⟩ = 0x000000FF#32 ∧
    encodePixel .bgr ⟨0xFF#8, 0#8, 0#8⟩ = 0x00FF0000#32 := by decide
theorem test_decodePixel : decodePixel .rgb 0xAB563412#32 = ⟨0x12#8, 0x34#8, 0x56#8⟩ ∧
    decodePixel .bgr 0xAB563412#32 = ⟨0x56#8, 0x34#8, 0x12#8⟩ := by decide
theorem test_pixAddr : pixAddr cfgA 0 0 = 0x80000000 ∧ pixAddr cfgA 0 1 = 0x80000A20 ∧ pixAddr cfgA 5 3 = 0x80001E74 ∧
    pixAddr cfgA 639 399 = 0x800FD1DC := by decide
theorem test_grid : gridW (params 7 15 []) cfgC = 80 ∧ gridH (params 7 15 []) cfgC = 25 := by decide

/-- R152: 'A' (0x41) is row 33 * CH of the ROM, its most significant bit the leftmost column. -/
theorem test_glyphBit : let p := params 1 1 (List.replicate 66 0#320 ++ [0b10#320, 0b01#320])
    glyphBit p 0x41#8 0 0 = true ∧ glyphBit p 0x41#8 0 1 = false ∧ glyphBit p 0x41#8 1 0 = false ∧ glyphBit p 0x41#8 1 1 = true := by
  decide +kernel

/-! ### INIT (V-IN-1 to V-IN-12) -/

theorem test_init_accepted : descriptorOk { cfgB with stride := 320#16, hres := 320#16, vres := 200#16, base := 0#64 } ∧
    descriptorOk { cfgB with stride := 1920#16, hres := 1920#16, vres := 1080#16, base := 0#64 } ∧
    descriptorOk { cfgB with base := 0xFFFFFFFFFFF06000#64 } ∧ descriptorOk cfgA ∧ descriptorOk cfgC := by decide
theorem test_init_rejected :
    exec (.init { cfgB with stride := 319#16, hres := 319#16, vres := 200#16 }) afterReset = .next (afterReset.reject .rejBadDescriptor) ∧
    exec (.init { cfgB with base := 0xFFFFFFFFFFF06004#64 }) afterReset = .next (afterReset.reject .rejBadDescriptor) ∧
    (after (exec (.init cfgB) (at8x16 cfgB 0#16 0#16))).map (·.responses) = some [0x8300000000000000#64] := ⟨rfl, rfl, by decide⟩

/-! ### FILL, DRAWPX, READPX (V-FB-1 to V-FB-7) -/

/-- A screen of 2 by 2 pixels with one pixel of padding, too small for INIT: a FILL writes the four words and no padding. -/
def tiny : Descriptor := { fmt := .rgb, stride := 3#16, hres := 2#16, vres := 2#16, base := 0x1000#64 }

theorem test_fill : (after (exec (.fill ⟨0x10#8, 0x20#8, 0x30#8⟩) (configured (params 0 0 []) tiny 0#16 0#16 .normal))).map
    (fun s => (bytesAt 0x1004 s, bytesAt 0x1008 s, s.dev.trace.length)) =
    some ([some 0x10#8, some 0x20#8, some 0x30#8, some 0x00#8], [none, none, none, none], 4) := by decide
theorem test_fill_unconfigured : (after (exec (.fill ⟨0#8, 0#8, 0#8⟩) afterReset)).map (·.responses) = some [0x8200000000000000#64] := by
  decide
theorem test_drawpx : (after (exec (.drawpx 639#16 399#16 ⟨0xFF#8, 0#8, 0#8⟩) (at8x16 cfgB 0#16 0#16))).map
    (fun s => (s.dev.trace, s.responses)) = some ([.write 0x100F9FFC 0x000000FF#32], [0x0000000000000000#64]) := by decide
theorem test_drawpx_invisible : (after (exec (.drawpx 640#16 0#16 ⟨0#8, 0xFF#8, 0#8⟩) (at8x16 cfgA 0#16 0#16))).map
    (fun s => (s.dev.trace, s.responses)) = some ([], [0x0000000000000000#64]) := by decide
theorem test_readpx : (after (exec (.readpx 639#16 399#16) { at8x16 cfgB 0#16 0#16 with
    dev := { mem := [(0x100F9FFC, 0xFF#8), (0x100F9FFD, 0x80#8), (0x100F9FFE, 0x00#8), (0x100F9FFF, 0xAB#8)], trace := [] } })).map
    (fun s => (s.dev.trace, s.responses)) = some ([.read 0x100F9FFC 0xAB0080FF#32], [0x0000000000FF8000#64]) := by decide
theorem test_readpx_absent : (after (exec (.readpx 640#16 0#16) (at8x16 cfgB 0#16 0#16))).map
    (fun s => (s.dev.trace, s.responses)) = some ([], [0x0100000000000000#64]) := by decide

/-! ### Cursor commands (V-PC-1 to V-PC-7, V-GD-1, V-GD-2, V-LS-1, V-NL-1, R176) -/

/-- 'A' drawn on the tiny screen with a 2 by 2 cell: both colours are written, and the one-cell grid scrolls (R153, R168;
with H = 1 the scroll only clears, V-SC-1). The trace is newest first. -/
theorem test_putc_blit : (after (exec (.putc 0x41#8) (configured (params 1 1 (List.replicate 66 0#320 ++ [0b10#320, 0b01#320]))
    tiny 0#16 0#16 .normal))).map (fun s => (s.dev.trace.reverse.take 4, s.dev.trace.length, cursor s)) =
    some ([.write 0x1000 0x00AAAAAA#32, .write 0x1004 0#32, .write 0x100C 0#32, .write 0x1010 0x00AAAAAA#32], 8, (0#16, 0#16)) := by
  decide +kernel
/-- V-PC-4 and its response. -/
theorem test_putc_unprintable : (after (exec (.putc 0x7F#8) (at8x16 cfgA 8#16 16#16))).map
    (fun s => (s.dev.trace, cursor s, s.responses)) = some ([], (8#16, 16#16), [0x8500000000000000#64]) := by decide
/-- V-PC-1, V-PC-2 and V-PC-5: the advance, the wrap of CFG-A, and the wrap of CFG-C by the cell-fit test. -/
theorem test_advance : (after (advanceCursor (at8x16 cfgA 0#16 0#16))).map cursor = some (8#16, 0#16) ∧
    (after (advanceCursor (at8x16 cfgA 632#16 0#16))).map cursor = some (0#16, 16#16) ∧
    (after (advanceCursor (at8x16 cfgC 632#16 0#16))).map cursor = some (0#16, 16#16) := by decide
theorem test_godown : (after (exec .godown (at8x16 cfgA 40#16 0#16))).map (fun s => (cursor s, s.dev.trace)) =
    some ((40#16, 16#16), []) := by decide
theorem test_linestart : (after (exec .linestart (at8x16 cfgA 40#16 384#16))).map (fun s => (cursor s, s.dev.trace)) =
    some ((0#16, 384#16), []) := by decide
theorem test_newline : (after (exec .newline (at8x16 cfgA 16#16 0#16))).map (fun s => (cursor s, s.dev.trace)) =
    some ((0#16, 16#16), []) := by decide

/-- The tiny screen as a grid of 2 by 2 one-pixel cells, its second row holding two words with reserved byte 0xAB. -/
def tinyRows (m : Mode) : State :=
  { configured (params 0 0 []) tiny 1#16 1#16 m with
    dev := { trace := [], mem := [(0x100C, 0x11#8), (0x100D, 0x22#8), (0x100E, 0x33#8), (0x100F, 0xAB#8),
      (0x1010, 0x44#8), (0x1011, 0x55#8), (0x1012, 0x66#8), (0x1013, 0xAB#8)] } }

/-- A GODOWN on the last row: the row moves up with its reserved bytes, the last row gets the active background, the
padding is untouched, and the cursor ends at column 0 (V-GD-2, R176, D19). -/
theorem test_godown_scrolls : (after (exec .godown (tinyRows .panic))).map
    (fun s => (bytesAt 0x1000 s, bytesAt 0x1008 s, bytesAt 0x1010 s, cursor s)) =
    some ([some 0x11#8, some 0x22#8, some 0x33#8, some 0xAB#8], [none, none, none, none],
      [some 0xAA#8, some 0x00#8, some 0x00#8, some 0x00#8], (0#16, 1#16)) := by decide
/-- A NEWLINE there scrolls once: 2 reads and 4 writes (R172, R270). -/
theorem test_newline_scrolls_once : (after (exec .newline (tinyRows .normal))).map
    (fun s => (s.dev.trace.length, cursor s)) = some (6, (0#16, 1#16)) := by decide

/-! ### SETPANIC (V-SP-1, V-SP-2), and the colours after it (V-SP-3) -/

theorem test_setpanic : (after (exec .setpanic (at8x16 cfgA 40#16 16#16))).map (fun s => (s.mode, cursor s, s.responses)) =
    some (.panic, (40#16, 16#16), [0#64]) ∧ exec .setpanic { at8x16 cfgA 0#16 0#16 with mode := .panic } =
      .next ({ at8x16 cfgA 0#16 0#16 with mode := .panic }.respond .ok 0#24) := ⟨by decide, rfl⟩
theorem test_putc_panic_colours : (after (exec (.putc 0x41#8) (configured (params 0 0 [0b1#320]) tiny 0#16 0#16 .panic))).map
    (bytesAt 0x1000) = some [some 0xAA#8, some 0x00#8, some 0x00#8, some 0x00#8] := by decide +kernel

/-! ### The port and reset (V-RJ-1 to V-RJ-7; R34, R260, R262) -/

theorem test_reject_order : (after (step { afterReset with input := [.word 0x050000000000017F#64] })).map (·.responses) =
    some [0x8100000000000000#64] := by decide
/-- V-RJ-7: an INIT with reserved bits uses both words. -/
theorem test_init_uses_both_words :
    (after (andThen (step { afterReset with input := [.word 0x01FE000000000000#64, .word 0x0600000000000000#64] }) step)).map
    (fun s => (s.input, s.pending, s.responses)) = some ([], none, [0x8100000000000000#64]) := by decide
theorem test_reset : (after (step { at8x16 cfgA 40#16 16#16 with input := [.reset] })).map
    (fun s => (s.configured, s.mode, cursor s, s.pending)) = some (false, .normal, (0#16, 0#16), none) := by decide
/-- Reset after two of the four writes of a FILL: those two stand, and there is no response (R262). -/
theorem test_reset_during_fill : (after (step { configured (params 0 0 []) tiny 0#16 0#16 .normal with
    input := [.wordThenReset 0x0200000000102030#64 2] })).map
    (fun s => (bytesAt 0x1004 s, bytesAt 0x100C s, s.responses, s.configured)) =
    some ([some 0x10#8, some 0x20#8, some 0x30#8, some 0x00#8], [none, none, none, none], [], false) := by decide

/-! ### The host and the assembler (V-HC-1 to V-HC-6; R86, R87, R218, R223) -/

theorem test_host_print : printCommands ['H', 'i', '\n'] = [.putc 0x48#8, .putc 0x69#8, .newline] ∧
    printCommands ['a', '\r', 'b'] = [.putc 0x61#8, .linestart, .putc 0x62#8] ∧
    printCommands ['~', ' '] = [.putc 0x7E#8, .putc 0x20#8] := by decide
theorem test_host_tab : printCommands ['\t'] = [.putc 0x20#8, .putc 0x20#8, .putc 0x20#8, .putc 0x20#8] := by decide
theorem test_host_drops : printCommands ['é', '\x1F', '\x7F', '€'] = [] := by decide
theorem test_utf8 : utf8Bytes 0xE9 = [0xC3#8, 0xA9#8] ∧ utf8Bytes 0x20AC = [0xE2#8, 0x82#8, 0xAC#8] := by decide
theorem test_fault_report : (after (step { afterReset with
    input := [.call (.faultReport ['X']), .word 0x0600000000000000#64, .reset] })).map (·.input) =
    some [.word 0x0900000000000000#64, .call (.print ['X']), .reset] := by decide
theorem test_assemble_init :
    assembleLine ['I', 'N', 'I', 'T', ' ', 'B', 'G', 'R', ',', ' ', '6', '4', '8', ',', ' ', '6', '4', '0', ',', ' ',
      '4', '0', '0', ',', ' ', '0', 'x', '8', '0', '0', '0', '0', '0', '0', '0'] =
    some [.word 0x0101028802800190#64, .word 0x0000000080000000#64] := by decide +kernel
theorem test_assemble_drawpx : assembleLine ['D', 'R', 'A', 'W', 'P', 'X', ' ', '6', '3', '9', ',', ' ', '3', '9', '9', ',', ' ',
    '#', 'F', 'F', '0', '0', '0', '0'] = some [.word 0x03027F018FFF0000#64] := by decide +kernel
theorem test_assemble_program : assemble ['G', 'O', 'D', 'O', 'W', 'N', '\n', 'T', 'A', 'B', ' ', ';', 'x', '\n',
    'P', 'R', 'I', 'N', 'T', ' ', '"', 'H', 'i', '"'] =
    some [.word 0x0600000000000000#64, .call .tab, .call (.print ['H', 'i'])] := by decide +kernel

/-! ### Witnesses: concrete states and operands that meet the hypotheses of the statements, at the ends of each range -/

/-- The smallest screen, with cells of 160 by 100 pixels: a grid of 2 by 2. -/
def cfgMin : Descriptor := { fmt := .rgb, stride := 320#16, hres := 320#16, vres := 200#16, base := 0#64 }
def grid2x2 (k r : Nat) : State :=
  configured (params 159 99 []) cfgMin (BitVec.ofNat 16 (k * 160)) (BitVec.ofNat 16 (r * 100)) .normal
/-- The same screen as one cell of 320 by 200 pixels: the largest cell, the smallest grid. -/
def grid1x1 : State := configured (params 319 199 []) cfgMin 0#16 0#16 .panic

theorem witness_cell : AtCell (grid2x2 0 0) 0 0 ∧ AtCell (grid2x2 1 0) 1 0 ∧ AtCell (grid2x2 0 1) 0 1 ∧
    AtCell (grid2x2 1 1) 1 1 ∧ AtCell grid1x1 0 0 := by
  refine ⟨?_, ?_, ?_, ?_, ?_⟩ <;> constructor <;> decide

theorem witness_EveryDecodedCommandHasOneEncoding :
    decodeStream [0x0500000000000041#64, 0x0600000000000000#64] = .whole (.command (.putc 0x41#8)) [0x0600000000000000#64] := by
  decide

theorem witness_ReservedOpcodesAreRejected : ∃ s : State, s.pending = none ∧
    s.input = [.word 0x00FFFFFFFFFFFFFF#64, .word 0x0A00000000000000#64, .word 0xFF00000000000000#64] ∧
    (0x00FFFFFFFFFFFFFF#64).extractLsb' 56 8 = 0x00#8 ∧ 0x0A ≤ ((0x0A00000000000000#64).extractLsb' 56 8).toNat ∧
    0x0A ≤ ((0xFF00000000000000#64).extractLsb' 56 8).toNat := ⟨{ afterReset with input := _ }, rfl, rfl, by decide⟩

/-- A word of each format with a reserved bit set, at the ends of the masks. -/
theorem witness_ReservedBitsAreRejected :
    ((0x0200000001000000#64).extractLsb' 56 8 = 0x02#8 ∧ 0x0200000001000000#64 &&& 0x00FFFFFFFF000000#64 ≠ 0#64) ∧
    ((0x0400000000800000#64).extractLsb' 56 8 = 0x04#8 ∧ 0x0400000000800000#64 &&& 0x0000000000FFFFFF#64 ≠ 0#64) ∧
    ((0x0500000000000141#64).extractLsb' 56 8 = 0x05#8 ∧ 0x0500000000000141#64 &&& 0x00FFFFFFFFFFFF00#64 ≠ 0#64) ∧
    ((0x0680000000000000#64).extractLsb' 56 8 = 0x06#8 ∧ 0x0680000000000000#64 &&& 0x00FFFFFFFFFFFFFF#64 ≠ 0#64) ∧
    ((0x0900000000000001#64).extractLsb' 56 8 = 0x09#8 ∧ 0x0900000000000001#64 &&& 0x00FFFFFFFFFFFFFF#64 ≠ 0#64) ∧
    ((0x0102000000000000#64).extractLsb' 56 8 = 0x01#8 ∧ 0x0102000000000000#64 &&& 0x00FE000000000000#64 ≠ 0#64) ∧
    (∃ s : State, s.pending = some 0x0102000000000000#64 ∧ s.input = [.word 0#64]) :=
  ⟨by decide, by decide, by decide, by decide, by decide, by decide,
    { afterReset with pending := some _, input := _ }, rfl, rfl⟩

theorem witness_StepRunsTheDecodedCommand :
    (∃ s : State, s.pending = none ∧ s.input = [.word 0x0600000000000000#64] ∧ startsTwoWords 0x0600000000000000#64 = false ∧
      decodePair 0x0600000000000000#64 0#64 = .command .godown) ∧
    (∃ s : State, s.pending = none ∧ s.input = [.word 0x0101028802800190#64] ∧ startsTwoWords 0x0101028802800190#64 = true) ∧
    (∃ s : State, s.pending = some 0x0101028802800190#64 ∧ s.input = [.word 0x0000000080000000#64] ∧
      decodePair 0x0101028802800190#64 0x0000000080000000#64 = .command (.init cfgA)) ∧
    (∃ s : State, s.input = []) :=
  ⟨⟨{ afterReset with input := _ }, rfl, rfl, by decide, by decide⟩, ⟨{ afterReset with input := _ }, rfl, rfl, by decide⟩,
    ⟨{ afterReset with pending := some _, input := _ }, rfl, rfl, by decide⟩, afterReset, rfl⟩

theorem witness_WordsOfACommandRunIt : ∃ s : State, s.pending = none ∧ s.input = commandEvents [.init cfgA] ++ [] ∧
    (encode (.init cfgA)).length = 2 ∧ (encode .godown).length = 1 :=
  ⟨{ afterReset with input := commandEvents [.init cfgA] ++ [] }, rfl, rfl, rfl, rfl⟩

theorem witness_VisiblePixelsLieInTheRegion : descriptorOk cfgA ∧ visible cfgA 0 0 ∧ visible cfgA 639 399 ∧
    inPixel cfgA 639 399 (0x800FD1DC + 3) := by unfold inPixel; decide

/-- The three ends of R124, whose checks `descriptorOk` gathers: the smallest screen, the largest, and the region that ends
at the top of the address space. -/
theorem witness_InitConfiguresAndBlanks : afterReset.configured = false ∧ descriptorOk cfgMin ∧
    descriptorOk { cfgMin with stride := 65535#16, hres := 1920#16, vres := 1080#16 } ∧
    descriptorOk { cfgB with base := 0xFFFFFFFFFFF06000#64 } := by decide

theorem witness_InitIsRejected : (at8x16 cfgB 0#16 0#16).configured = true ∧ afterReset.configured = false ∧
    (319#16).toNat < 320 ∧ 1920 < (1921#16).toNat ∧ (199#16).toNat < 200 ∧ 1080 < (1081#16).toNat ∧
    (639#16).toNat < (640#16).toNat ∧ (2#64).toNat % 4 ≠ 0 ∧
    2 ^ 64 < (0xFFFFFFFFFFF06004#64).toNat + 4 * (640#16).toNat * (400#16).toNat := by decide

/-- For FILL, DRAWPX, READPX and the pair of them: the last visible pixel, the first padding column and the row below. -/
theorem witness_FramebufferCommands : (at8x16 cfgA 0#16 0#16).configured = true ∧ descriptorOk cfgA ∧
    visible cfgA (639#16).toNat (399#16).toNat ∧ ¬ visible cfgA (640#16).toNat (0#16).toNat ∧
    ¬ visible cfgA (0#16).toNat (400#16).toNat := by decide

/-- The largest cell and the smallest: a resolution that is a multiple of the cell size and one that is not. -/
theorem witness_GridIsTheResolutionInWholeCells : descriptorOk cfgMin ∧ descriptorOk cfgC ∧
    cfgMin.hres.toNat % cw (params 319 199 []) = 0 ∧ cfgMin.vres.toNat % ch (params 319 199 []) = 0 ∧
    cfgC.hres.toNat % cw (params 7 15 []) ≠ 0 ∧ 79 < gridW (params 7 15 []) cfgC ∧ 24 < gridH (params 7 15 []) cfgC := by
  decide

/-- The first row of the ROM and the last: a space's and a tilde's. -/
theorem witness_EveryFontIsTheReadingOfSomeRom : let p := params 0 0 (List.replicate 94 0#320 ++ [1#320])
    (0x20 ≤ (0x20#8).toNat ∧ p.rom[((0x20#8).toNat - 0x20) * ch p + 0]? = some 0#320) ∧
    ((0x7E#8).toNat ≤ 0x7E ∧ p.rom[((0x7E#8).toNat - 0x20) * ch p + 0]? = some 1#320) ∧ 0 < ch p ∧ 0 < cw p := by
  decide +kernel

theorem witness_PutcDrawsAndAdvances : AtCell (grid2x2 0 1) 0 1 ∧ 0 + 1 < gridW (grid2x2 0 1).params (grid2x2 0 1).desc ∧
    0x20 ≤ (0x20#8).toNat ∧ (0x7E#8).toNat ≤ 0x7E := ⟨witness_cell.2.2.1, by decide, by decide, by decide⟩
theorem witness_PutcWrapsToTheNextRow : AtCell (grid2x2 1 0) 1 0 ∧ 1 + 1 = gridW (grid2x2 1 0).params (grid2x2 1 0).desc ∧
    0 + 1 < gridH (grid2x2 1 0).params (grid2x2 1 0).desc := ⟨witness_cell.2.1, by decide, by decide⟩
theorem witness_PutcInTheLastCellScrolls : AtCell (grid2x2 1 1) 1 1 ∧ 1 + 1 = gridW (grid2x2 1 1).params (grid2x2 1 1).desc ∧
    1 + 1 = gridH (grid2x2 1 1).params (grid2x2 1 1).desc := ⟨witness_cell.2.2.2.1, by decide, by decide⟩
theorem witness_UnprintableCodesAreRejected : (at8x16 cfgA 0#16 0#16).configured = true ∧ (0x1F#8).toNat < 0x20 ∧
    0x7E < (0x7F#8).toNat := by decide

/-- For GODOWN, LINESTART and NEWLINE: a row above the last, the last row, and a grid of one row. -/
theorem witness_CursorCommands : (AtCell (grid2x2 1 0) 1 0 ∧ 0 + 1 < gridH (grid2x2 1 0).params (grid2x2 1 0).desc) ∧
    (AtCell (grid2x2 1 1) 1 1 ∧ 1 + 1 = gridH (grid2x2 1 1).params (grid2x2 1 1).desc) ∧
    (AtCell grid1x1 0 0 ∧ 0 + 1 = gridH grid1x1.params grid1x1.desc) :=
  ⟨⟨witness_cell.2.1, by decide⟩, ⟨witness_cell.2.2.2.1, by decide⟩, witness_cell.2.2.2.2, by decide⟩

/-- Each command that scrolls completes: for the two statements about the accesses of a scroll. -/
theorem witness_GodownScrolls {s : State} {k r : Nat} (h : AtCell s k r) (hr : r + 1 = gridH s.params s.desc) :
    ∃ t, exec .godown s = .next t := by
  simp only [exec, execGodown, ifConfigured_of_true h.configured, goDown_of_last h.curV hr]
  exact ⟨_, scroll_respondOk h.descriptor hr _⟩

theorem witness_NewlineScrolls {s : State} {k r : Nat} (h : AtCell s k r) (hr : r + 1 = gridH s.params s.desc) :
    ∃ t, exec .newline s = .next t := by
  simp only [exec, execNewline, ifConfigured_of_true h.configured, goDown_of_last h.curV hr]
  rw [scroll_eq (by exact h.descriptor), andThen_next, goToLineStart_of_fits (r := r)]
  · exact ⟨_, rfl⟩
  · simp only [State.setCurV_params, State.setCurV_desc, ← hr, Nat.add_sub_cancel]
    exact State.setCurV_toNat _ _ (row_lt_2_16 _ (Nat.le_of_lt h.row))
  · exact h.row

theorem witness_PutcScrolls {s : State} {c : Byte} {k r : Nat} (h : AtCell s k r) (hc : printable c)
    (hk : k + 1 = gridW s.params s.desc) (hr : r + 1 = gridH s.params s.desc) : ∃ t, exec (.putc c) s = .next t := by
  rw [exec, execPutc_eq h hc, (h.setDevice _).advance_scroll (by exact hk) (by exact hr)]
  exact ⟨_, scroll_respondOk (s := State.setCurH _ 0) (by exact h.descriptor) (by exact hr) _⟩

/-- The last cell of the grid: the commands that scroll there, and memory with a glyph drawn in that cell. -/
theorem witness_ScrollAccesses : AtCell (grid2x2 1 1) 1 1 ∧ 1 + 1 = gridW (grid2x2 1 1).params (grid2x2 1 1).desc ∧
    1 + 1 = gridH (grid2x2 1 1).params (grid2x2 1 1).desc ∧
    (∃ t, exec .godown (grid2x2 1 1) = .next t) ∧ (∃ t, exec .newline (grid2x2 1 1) = .next t) ∧
    (∃ t, exec (.putc 0x20#8) (grid2x2 1 1) = .next t) ∧
    ∃ m, GlyphDrawn (grid2x2 1 1).params (grid2x2 1 1).desc (activeColors (grid2x2 1 1)) 0x20#8
      (1 * cw (grid2x2 1 1).params) (1 * ch (grid2x2 1 1).params) (grid2x2 1 1).dev.mem m :=
  have h := witness_cell.2.2.2.1
  ⟨h, by decide, by decide, witness_GodownScrolls h (by decide), witness_NewlineScrolls h (by decide),
    witness_PutcScrolls h (by decide) (by decide) (by decide), _, painted_paint h.descriptor _ _ _ _ _ _⟩

theorem witness_AFullLineOfCharactersWraps : AtCell (grid2x2 0 0) 0 0 ∧ AtCell (grid2x2 0 1) 0 1 ∧ AtCell grid1x1 0 0 ∧
    [0x20#8, 0x7E#8].length = gridW (grid2x2 0 0).params (grid2x2 0 0).desc ∧
    [0x20#8].length = gridW grid1x1.params grid1x1.desc ∧ ∀ c ∈ [0x20#8, 0x7E#8], 0x20 ≤ c.toNat ∧ c.toNat ≤ 0x7E :=
  ⟨witness_cell.1, witness_cell.2.2.1, witness_cell.2.2.2.2, by decide⟩

theorem witness_SetpanicSelectsTheAlertPalette : grid1x1.configured = true ∧ (grid2x2 0 0).configured = true := by decide

/-- A step of a configured block in Panic mode whose input is no reset. -/
theorem witness_OnlyResetUndoesConfigurationOrPanic :
    ∃ t, step { grid1x1 with input := [.word 0x0700000000000000#64] } = .next t ∧ grid1x1.configured = true ∧ grid1x1.mode = .panic ∧
      (∀ rest, [Event.word 0x0700000000000000#64] ≠ .reset :: rest) ∧
      ∀ w n rest, [Event.word 0x0700000000000000#64] ≠ .wordThenReset w n :: rest :=
  ⟨_, rfl, rfl, rfl, by simp, by simp⟩

/-- A step and a command that complete: for ConstantsNeverChange, ModeDoesNotChangeTheAnswers and
EveryAccessIsAtAVisiblePixel. -/
theorem witness_CompletedStep : (∃ t, step { afterReset with input := [.reset] } = .next t) ∧
    ∃ t, exec (.drawpx 1#16 1#16 ⟨1#8, 2#8, 3#8⟩) (at8x16 cfgA 0#16 0#16) = .next t ∧ t.dev.trace.length = 1 :=
  ⟨⟨_, rfl⟩, _, rfl, by decide⟩

theorem witness_OnlyInitRunsBeforeInit : afterReset.configured = false ∧ ∀ d, Instr.putc 0x7F#8 ≠ .init d := ⟨rfl, by simp⟩

theorem witness_ARejectedCommandHasNoEffect : ∃ s t : State, s.input = [.word 0x0A00000000000000#64] ∧ step s = .next t ∧
    t.responses = 0x8000000000000000#64 :: s.responses ∧ 0x80 ≤ ((0x8000000000000000#64).extractLsb' 56 8).toNat :=
  ⟨{ afterReset with input := [.word 0x0A00000000000000#64] }, _, rfl, rfl, rfl, by decide⟩

theorem witness_EachCommandAnswersOnceWithItsStatuses : (∃ t, runFramed 0x0700000000000000#64 0#64 (at8x16 cfgA 8#16 0#16) = .next t) ∧
    ∃ t, runFramed 0x0A00000000000000#64 0#64 afterReset = .next t := ⟨⟨_, rfl⟩, _, rfl⟩

theorem witness_AGoodCommandIsNeverRejected : AtCell (grid2x2 1 1) 1 1 ∧ (Instr.putc 0x7E#8).wellFormed = true ∧
    ∀ d, Instr.putc 0x7E#8 ≠ .init d := ⟨witness_cell.2.2.2.1, by decide, by simp⟩

/-- A command that scrolls, one that does not, and an INIT, each of which completes. -/
theorem witness_AccessCountsOfEachCommand :
    (scrollsAt .godown (grid2x2 1 1).params (grid2x2 1 1).desc 1 1 ∧ ∃ t, exec .godown (grid2x2 1 1) = .next t) ∧
    (¬ scrollsAt .godown (grid2x2 1 0).params (grid2x2 1 0).desc 1 0 ∧ ∃ t, exec .godown (grid2x2 1 0) = .next t) ∧
    (afterReset.configured = false ∧ descriptorOk cfgMin ∧ ∃ t, exec (.init cfgMin) afterReset = .next t) := by
  refine ⟨⟨by unfold scrollsAt; decide, witness_ScrollAccesses.2.2.2.1⟩, ⟨by unfold scrollsAt; decide, _, rfl⟩, rfl, by decide, ?_⟩
  simp only [exec, execInit]
  rw [if_neg (by decide), if_pos (by decide), onDevice_eq (fillScreen_eq (by decide) _ _)]
  exact ⟨_, rfl⟩

theorem witness_ResetDuringACommandLeavesAPrefixOfItsWrites : ∃ s u : State, ∃ new,
    s.input = [.word 0x0300000000112233#64] ∧ step s = .next u ∧ u.dev.trace = new ++ s.dev.trace ∧
    (new.filter Access.isWrite).length = 1 :=
  ⟨{ at8x16 cfgB 0#16 0#16 with input := [.word 0x0300000000112233#64] }, _, [.write 0x10000000 0x00332211#32], rfl, rfl, rfl, rfl⟩

theorem witness_UnsetDescriptorRegistersAreNeverRead : afterReset.configured = false ∧
    (∃ t, exec .godown afterReset = .next t ∧ t.configured = false) ∧ ∃ t, exec (.init cfgMin) afterReset = .next t :=
  ⟨rfl, ⟨_, rfl, rfl⟩, witness_AccessCountsOfEachCommand.2.2.2.2⟩

/-- A configured block that is safe: the smallest screen, blanked by one write to each visible pixel, and a held INIT. -/
def blanked : Device :=
  (paintAccesses cfgMin 0 0 cfgMin.hres.toNat cfgMin.vres.toNat fun _ _ => normalColors.bg).foldl replayAccess { mem := [], trace := [] }
theorem blanked_eq : fillScreen cfgMin normalColors.bg { mem := [], trace := [] } = .ok blanked :=
  paint_eq (by decide) _ _ _ _ _ _
/-- The last cell of the 2 by 2 grid, with a device and a held INIT. -/
def withDevice (d : Device) : State := { grid2x2 1 1 with dev := d, pending := some 0x0101028802800190#64 }

theorem safe_withDevice {d : Device} (hd : DeviceOk d) (hs : ScreenWritten cfgMin d.mem) : Safe (withDevice d) := by
  have hc := witness_cell.2.2.2.1
  refine ⟨hd, fun w h => ?_, fun _ => ⟨hc.descriptor, ⟨1, 1, hc.column, hc.row, hc.curH, hc.curV⟩, hs⟩,
    fun h => absurd h (by simp [withDevice, grid2x2, configured])⟩
  have hw : w = 0x0101028802800190#64 := (Option.some.inj (show some 0x0101028802800190#64 = some w from h)).symm
  rw [hw]; decide

theorem witness_ASafeStateNeverStops : Safe (withDevice blanked) ∧ (withDevice blanked).configured = true :=
  have h0 : DeviceOk { mem := [], trace := [] } := ⟨⟨List.Pairwise.nil, by simp⟩, rfl, trivial, by simp⟩
  ⟨safe_withDevice (paint_deviceOk (by decide) h0 blanked_eq) (fillScreen_screen (by decide) blanked_eq), rfl⟩

theorem witness_StepsKeepStatesSafe : Safe (withDevice blanked) ∧ step (withDevice blanked) = .next (withDevice blanked) :=
  ⟨witness_ASafeStateNeverStops.1, rfl⟩

theorem witness_CommandsKeepTheCursorInTheGrid :
    (AtCell (grid2x2 1 1) 1 1 ∧ ∃ t, exec .godown (grid2x2 1 1) = .next t) ∧
    (afterReset.configured = false ∧ ∃ t, exec (.init cfgMin) afterReset = .next t ∧ t.configured = true) := by
  refine ⟨⟨witness_cell.2.2.2.1, witness_ScrollAccesses.2.2.2.1⟩, rfl, ?_⟩
  simp only [exec, execInit]
  rw [if_neg (by decide), if_pos (by decide), onDevice_eq (fillScreen_eq (by decide) _ _)]
  exact ⟨_, rfl, rfl⟩

theorem witness_StepsKeepMemoryCanonical : Memory.wf (tinyRows .normal).dev.mem ∧
    ∃ t, step { tinyRows .normal with input := [.word 0x0800000000000000#64] } = .next t := ⟨by decide, _, rfl⟩

theorem witness_ByteFilterEqualsCodepointFilter : ('~'.toNat ≠ 0x0A ∧ '~'.toNat ≠ 0x0D ∧ '~'.toNat ≠ 0x09) ∧
    ('é'.toNat ≠ 0x0A ∧ 'é'.toNat ≠ 0x0D ∧ 'é'.toNat ≠ 0x09) := by decide

theorem witness_PrintSendsOnlyGoodCommands : Instr.putc 0x7E#8 ∈ printCommands ['é', '~'] := by decide

/-- Each call at the head of the inputs of some state, and a list of inputs that a fault report drops. -/
theorem witness_HostCallsBecomeCommandWords :
    (∃ s : State, s.input = [.call (.construct cfgA)]) ∧ (∃ s : State, s.input = [.call (.print [])]) ∧
    (∃ s : State, s.input = [.call (.print ['A', '\t']), .reset]) ∧ (∃ s : State, s.input = [.call .tab]) ∧
    (∃ s : State, s.input = [.call .enterPanic]) ∧
    (∃ s : State, s.input = [.call (.faultReport []), .word 0x0600000000000000#64, .call .tab, .reset]) ∧
    ∀ e ∈ [Event.word 0x0600000000000000#64, .call .tab], (∃ w, e = .word w) ∨ ∃ c, e = .call c :=
  ⟨⟨{ afterReset with input := _ }, rfl⟩, ⟨{ afterReset with input := _ }, rfl⟩, ⟨{ afterReset with input := _ }, rfl⟩,
    ⟨{ afterReset with input := _ }, rfl⟩, ⟨{ afterReset with input := _ }, rfl⟩, ⟨{ afterReset with input := _ }, rfl⟩,
    by simp⟩

end Sys2Proof.Tests
end

/-! The glyph ROM (42_glyph_rom.md): a ROM that stores a given FONT, and O19, which reads it back. -/

section

namespace Sys2Proof.Machine

/-- A glyph bit is read from the ROM row that holds it, where the ROM has that row (R151, R152). -/
theorem glyphBit_of_romRow {p : Params} {c : Byte} {y : Nat} {row : BitVec 320}
    (h : p.rom[(c.toNat - 0x20) * ch p + y]? = some row) (x : Nat) :
    glyphBit p c y x = row.getLsbD (cw p - 1 - x) := by
  rw [glyphBit, glyphRow, List.getD_eq_getElem?_getD, h, Option.getD_some]

/-- Row `i` of the ROM that stores `font`: glyph row `i % CH` of the code 0x20 + `i / CH`, its column x in bit CW-1-x. -/
def fontRow (p : Params) (font : Byte → Nat → Nat → Bool) (i : Nat) : BitVec 320 :=
  BitVec.ofFnLE fun b => font (BitVec.ofNat 8 (i / ch p + 0x20)) (i % ch p) (cw p - 1 - b)

/-- The ROM that stores `font` at the 95 printable codes (R152). -/
def fontRom (p : Params) (font : Byte → Nat → Nat → Bool) : List (BitVec 320) :=
  (List.range (95 * ch p)).map (fontRow p font)

theorem fontRom_length (p : Params) (font : Byte → Nat → Nat → Bool) : (fontRom p font).length = 95 * ch p := by
  rw [fontRom, List.length_map, List.length_range]

theorem fontRom_getElem? {p : Params} (font : Byte → Nat → Nat → Bool) {i : Nat} (hi : i < 95 * ch p) :
    (fontRom p font)[i]? = some (fontRow p font i) := by
  rw [fontRom, List.getElem?_map, List.getElem?_range hi, Option.map_some]

/-- The rows of the printable codes lie in a ROM of 95 * CH rows. -/
theorem romIndex_lt {p : Params} {c : Byte} {y : Nat} (hc : c.toNat ≤ 0x7E) (hy : y < ch p) :
    (c.toNat - 0x20) * ch p + y < 95 * ch p :=
  calc (c.toNat - 0x20) * ch p + y
    _ < (c.toNat - 0x20 + 1) * ch p := by rw [Nat.succ_mul]; exact Nat.add_lt_add_left hy _
    _ ≤ 95 * ch p := Nat.mul_le_mul_right _ (by omega)

/-- The code and the glyph row are the quotient and the remainder of the row's index by CH. -/
theorem fontRow_getLsbD {p : Params} (font : Byte → Nat → Nat → Bool) {c : Byte} {y x : Nat}
    (hc : 0x20 ≤ c.toNat) (hy : y < ch p) (hx : x < cw p) :
    (fontRow p font ((c.toNat - 0x20) * ch p + y)).getLsbD (cw p - 1 - x) = font c y x := by
  have hbit : cw p - 1 - x < 320 := by have := cw_le p; omega
  have hcode : ((c.toNat - 0x20) * ch p + y) / ch p = c.toNat - 0x20 := by
    rw [Nat.mul_comm, Nat.mul_add_div (ch_pos p), Nat.div_eq_of_lt hy, Nat.add_zero]
  have hrow : ((c.toNat - 0x20) * ch p + y) % ch p = y := by rw [Nat.mul_comm, Nat.mul_add_mod, Nat.mod_eq_of_lt hy]
  have hcol : cw p - 1 - (cw p - 1 - x) = x := by omega
  rw [fontRow, BitVec.getLsbD_ofFnLE, dif_pos hbit, hcode, hrow, hcol, Nat.sub_add_cancel hc,
    BitVec.ofNat_toNat, BitVec.setWidth_eq]

/-- The ROM that stores a FONT reads as that FONT at every printable code (R151, R152). -/
theorem glyphBit_fontRom {p : Params} (font : Byte → Nat → Nat → Bool) {c : Byte} {y x : Nat}
    (hlo : 0x20 ≤ c.toNat) (hhi : c.toNat ≤ 0x7E) (hy : y < ch p) (hx : x < cw p) :
    glyphBit { p with rom := fontRom p font } c y x = font c y x :=
  (glyphBit_of_romRow (p := { p with rom := fontRom p font })
    (fontRom_getElem? font (romIndex_lt hhi hy)) x).trans (fontRow_getLsbD font hlo hy hx)

/-- Settles O19: the ROM that stores the FONT row by row is the one whose reading it is. -/
theorem everyFontIsTheReadingOfSomeRom : Obligations.EveryFontIsTheReadingOfSomeRom :=
  ⟨fun _ _ _ x _ _ _ _ _ hrow => glyphBit_of_romRow hrow x,
   fun _ => ⟨rfl, rfl⟩,
   fun p font => ⟨fontRom p font, fontRom_length p font, fun _ _ _ => glyphBit_fontRom font⟩⟩

end Sys2Proof.Machine
end

/-! What one step and one command can do, each said once: the cases of a step, the effect of a command on a configured
block, and what a command does before INIT. -/

section

namespace Sys2Proof.Machine

variable {s t u : State} {i : Instr}

/-! ### A step (30_encoding.md R71, 60_exceptions.md R233, R245, 70_reset_and_hazards.md R262) -/

/-- All that a word on the port can do: be held as the first half of an INIT, be rejected as malformed, or run a
command. -/
inductive Delivered (s t : State) : Prop
  | held (w : Word64) (opcode : startsTwoWords w = true) (after : t = s.setPending (some w))
  | rejected (cause : Status) (after : t = (s.setPending none).reject cause)
  | executed (i : Instr) (run : exec i (s.setPending none) = .next t)

theorem deliverWord_delivered {w : Word64} (h : deliverWord w s = .next t) : Delivered s t := by
  rcases deliverWord_eq_next h with ⟨-, hw, rfl⟩ | ⟨w0, w1, -, h⟩
  · exact .held w hw rfl
  · rcases runFramed_eq_next h with ⟨i, -, h⟩ | ⟨cause, -, rfl⟩
    exacts [.executed i h, .rejected _ rfl]

/-- All that a step can do. -/
inductive Stepped (s t : State) : Prop
  | idle (before : s.input = []) (after : t = s)
  | word (w : Word64) (rest : List Event) (before : s.input = .word w :: rest) (run : Delivered (s.setInput rest) t)
  | reset (rest : List Event) (before : s.input = .reset :: rest) (after : t = (s.setInput rest).applyReset)
  | cut (w : Word64) (n : Nat) (rest : List Event) (u : State) (before : s.input = .wordThenReset w n :: rest)
      (run : Delivered (s.setInput rest) u) (after : t = cutShort n (s.setInput rest) u)
  | called (c : HostCall) (rest : List Event) (before : s.input = .call c :: rest)
      (after : t = (s.setInput rest).setInput (hostStep c rest))

theorem step_stepped (h : step s = .next t) : Stepped s t := by
  rcases step_eq_next h with ⟨hi, rfl⟩ | ⟨e, rest, hi, h⟩
  · exact .idle hi rfl
  cases e with
  | word w => exact .word w rest hi (deliverWord_delivered h)
  | reset => cases h; exact .reset rest hi rfl
  | wordThenReset w n =>
    obtain ⟨u, e1, e2⟩ := andThen_eq_next.1 h
    cases e2
    exact .cut w n rest u hi (deliverWord_delivered e1) rfl
  | call c => cases h; exact .called c rest hi rfl

/-! ### What a command keeps (10_state.md R21, R22, R28, R29) -/

/-- No command writes the parameters or PENDING. -/
theorem exec_params_pending (h : exec i s = .next t) : t.params = s.params ∧ t.pending = s.pending := by
  cases exec_answered h with
  | rejected _ _ after => rw [after]; exact ⟨rfl, rfl⟩
  | constructed _ _ _ _ after => rw [after]; exact ⟨rfl, rfl⟩
  | completed _ _ _ same _ _ _ after => rw [after]; exact ⟨same.params, same.pending⟩
  | panicked _ _ after => rw [after]; exact ⟨rfl, rfl⟩

/-- CONFIGURED and the descriptor are as they were, and MODE is as it was or PANIC. -/
structure KeepsConfiguration (s t : State) : Prop where
  configured : t.configured = s.configured
  desc : t.desc = s.desc
  mode : t.mode = s.mode ∨ t.mode = .panic

/-- A command on a configured block keeps the configuration: INIT is rejected there. -/
theorem exec_keepsConfiguration (hc : s.configured = true) (h : exec i s = .next t) : KeepsConfiguration s t := by
  cases exec_answered h with
  | rejected _ _ after => rw [after]; exact ⟨rfl, rfl, .inl rfl⟩
  | constructed _ _ _ before _ => rw [hc] at before; cases before
  | completed _ _ _ same _ _ _ after => rw [after]; exact ⟨same.configured, same.desc, .inl same.mode⟩
  | panicked _ _ after => rw [after]; exact ⟨rfl, rfl, .inr rfl⟩

/-! ### A command on a configured block -/

/-- The effect of a command on a configured block, before it answers: nothing where it is rejected, and otherwise its
own pseudocode (41_framebuffer.md, 42_glyph_rom.md, 43_charbuffer.md, 44_console_mode.md). -/
inductive Effect (s u : State) : Prop
  | nothing (after : u = s)
  | filled (q : Pixel) (d : Device) (op : fillScreen s.desc q s.dev = .ok d) (after : u = s.setDevice d)
  | drawn (h v : Nat) (q : Pixel) (d : Device) (op : drawPixelIfVisible s.desc h v q s.dev = .ok d)
      (after : u = s.setDevice d)
  | read (h v : Nat) (o : Option Pixel) (d : Device) (op : getPixelIfVisible s.desc h v s.dev = .ok (o, d))
      (after : u = s.setDevice d)
  | put (c : Byte) (d : Device)
      (op : blitGlyph s.params s.desc (activeColors s) c s.curH.toNat s.curV.toNat s.dev = .ok d)
      (after : advanceCursor (s.setDevice d) = .next u)
  | down (after : goDown s = .next u)
  | lineStart (after : goToLineStart s = .next u)
  | newLine (m : State) (first : goDown s = .next m) (after : goToLineStart m = .next u)
  | panicked (after : u = s.setPanicMode)

/-- A command on a configured block has its effect and sends its response. -/
theorem exec_effect (hc : s.configured = true) (h : exec i s = .next t) :
    ∃ u st data, Effect s u ∧ t = u.respond st data := by
  have body {b : Result} (h : ifConfigured s b = .next t) : b = .next t := by rwa [ifConfigured_of_true hc] at h
  have ended {r : Result} (h : andThen r respondOk = .next t) (hr : ∀ u, r = .next u → Effect s u) :
      ∃ u st data, Effect s u ∧ t = u.respond st data := by
    obtain ⟨u, e1, e2⟩ := andThen_eq_next.1 h
    cases e2
    exact ⟨u, _, _, hr u e1, rfl⟩
  cases i with
  | init d =>
    rw [exec, execInit, if_pos hc] at h; cases h
    exact ⟨s, _, _, .nothing rfl, rfl⟩
  | fill q =>
    obtain ⟨d, e1, e2⟩ := onDevice_eq_next.1 (body h)
    cases e2
    exact ⟨_, _, _, .filled q d e1 rfl, rfl⟩
  | drawpx x y q =>
    obtain ⟨d, e1, e2⟩ := onDevice_eq_next.1 (body h)
    cases e2
    exact ⟨_, _, _, .drawn _ _ q d e1 rfl, rfl⟩
  | readpx x y =>
    have h := body h
    split at h <;> cases h
    · exact ⟨_, _, _, .read _ _ _ _ ‹_› rfl, rfl⟩
    · exact ⟨_, _, _, .read _ _ _ _ ‹_› rfl, rfl⟩
  | putc c =>
    have h := body h
    split at h
    · obtain ⟨d, e1, e2⟩ := onDevice_eq_next.1 h
      exact ended e2 fun u e => .put c d e1 e
    · cases h; exact ⟨s, _, _, .nothing rfl, rfl⟩
  | godown => exact ended (body h) fun u e => .down e
  | linestart => exact ended (body h) fun u e => .lineStart e
  | newline =>
    refine ended (body h) fun u e => ?_
    obtain ⟨m, e1, e2⟩ := andThen_eq_next.1 e
    exact .newLine m e1 e2
  | setpanic => cases body h; exact ⟨_, _, _, .panicked rfl, rfl⟩

/-! ### A command before INIT (60_exceptions.md R233, 10_state.md R36) -/

/-- An INIT with a good descriptor constructs the block and blanks the screen (R124). -/
theorem exec_init_of_ok {d : Descriptor} (hd : descriptorOk d) (hc : s.configured = false) :
    exec (.init d) s = onDevice (s.construct d) (fillScreen d s.params.normal.bg) respondOk := by
  rw [exec, execInit, if_neg (by simp [hc]), if_pos hd]

theorem exec_init_of_not_ok {d : Descriptor} (hd : ¬ descriptorOk d) (hc : s.configured = false) :
    exec (.init d) s = .next (s.reject .rejBadDescriptor) := by
  rw [exec, execInit, if_neg (by simp [hc]), if_neg hd]

/-- Before INIT every command but an INIT with a good descriptor is rejected, with a cause that depends on the command
alone. -/
theorem init_or_rejected (i : Instr) :
    (∃ d, i = .init d ∧ descriptorOk d) ∨
      ∃ cause, ∀ s : State, s.configured = false → exec i s = .next (s.reject cause) := by
  cases i with
  | init d =>
    by_cases hd : descriptorOk d
    · exact .inl ⟨d, rfl, hd⟩
    · exact .inr ⟨_, fun _ => exec_init_of_not_ok hd⟩
  | _ => exact .inr ⟨.rejNotConfigured, fun _ => ifConfigured_of_false⟩

/-- All that a command can do before INIT. -/
theorem exec_unconfigured (hc : s.configured = false) (h : exec i s = .next t) :
    (∃ cause, t = s.reject cause) ∨
      ∃ d dev, i = .init d ∧ descriptorOk d ∧ fillScreen d s.params.normal.bg s.dev = .ok dev ∧
        t = ((s.construct d).setDevice dev).respond .ok 0#24 := by
  rcases init_or_rejected i with ⟨d, rfl, hd⟩ | ⟨cause, hr⟩
  · rw [exec_init_of_ok hd hc] at h
    obtain ⟨dev, e1, e2⟩ := onDevice_eq_next.1 h
    cases e2
    exact .inr ⟨d, dev, rfl, hd, e1, rfl⟩
  · rw [hr s hc] at h; cases h; exact .inl ⟨cause, rfl⟩

end Sys2Proof.Machine
end

/-! The cursor stays on a cell of the grid (10_state.md R26, R27). -/

section

namespace Sys2Proof.Machine

variable {s t u : State} {k r k' r' : Nat}

theorem AtCell.respond (h : AtCell s k r) (st : Status) (data : Rgb24) : AtCell (s.respond st data) k r :=
  ⟨h.configured, h.descriptor, h.column, h.row, h.curH, h.curV⟩

theorem AtCell.setPanicMode (h : AtCell s k r) : AtCell s.setPanicMode k r :=
  ⟨h.configured, h.descriptor, h.column, h.row, h.curH, h.curV⟩

theorem AtCell.setCurH (h : AtCell s k r) (hk : k' < gridW s.params s.desc) :
    AtCell (s.setCurH (k' * cw s.params)) k' r :=
  ⟨h.configured, h.descriptor, hk, h.row, State.setCurH_toNat _ _ (col_lt_2_16 _ (Nat.le_of_lt hk)), h.curV⟩

theorem AtCell.setCurV (h : AtCell s k r) (hr : r' < gridH s.params s.desc) :
    AtCell (s.setCurV (r' * ch s.params)) k r' :=
  ⟨h.configured, h.descriptor, h.column, hr, h.curH, State.setCurV_toNat _ _ (row_lt_2_16 _ (Nat.le_of_lt hr))⟩

theorem AtCell.setCurH_zero (h : AtCell s k r) : AtCell (s.setCurH 0) 0 r := by
  have := h.setCurH (gridW_pos h.descriptor)
  rwa [Nat.zero_mul] at this

/-- A scroll puts the cursor on column 0 of the last row, wherever it stood (R166). -/
theorem scroll_atCell (hc : s.configured = true) (hg : descriptorOk s.desc) (h : scroll s = .next t) :
    AtCell t 0 (gridH s.params s.desc - 1) := by
  obtain ⟨d1, d2, -, -, rfl⟩ := scroll_eq_next h
  have hr : gridH s.params s.desc - 1 < gridH s.params s.desc := Nat.sub_lt (gridH_pos hg) Nat.one_pos
  exact ⟨hc, hg, gridW_pos hg, hr, by rw [Nat.zero_mul]; rfl,
    State.setCurV_toNat _ _ (row_lt_2_16 _ (Nat.le_of_lt hr))⟩

theorem AtCell.goDown (h : AtCell s k r) (e : goDown s = .next t) : ∃ k' r', AtCell t k' r' := by
  by_cases hr : r + 1 < gridH s.params s.desc
  · rw [goDown_of_lt h.curV hr] at e; cases e
    exact ⟨_, _, h.setCurV hr⟩
  · rw [goDown_of_last h.curV (Nat.le_antisymm h.row (Nat.not_lt.1 hr))] at e
    exact ⟨_, _, scroll_atCell (by exact h.configured) (by exact h.descriptor) e⟩

theorem AtCell.goToLineStart (h : AtCell s k r) (e : goToLineStart s = .next t) : ∃ k' r', AtCell t k' r' := by
  rw [goToLineStart_of_fits h.curV h.row] at e; cases e
  exact ⟨_, _, h.setCurH_zero⟩

theorem AtCell.advanceCursor (h : AtCell s k r) (e : advanceCursor s = .next t) : ∃ k' r', AtCell t k' r' := by
  by_cases hk : k + 1 < gridW s.params s.desc
  · rw [h.advance hk] at e; cases e
    exact ⟨_, _, h.setCurH hk⟩
  have hk : k + 1 = gridW s.params s.desc := Nat.le_antisymm h.column (Nat.not_lt.1 hk)
  by_cases hr : r + 1 < gridH s.params s.desc
  · rw [h.advance_wrap hk hr] at e; cases e
    exact ⟨_, _, h.setCurH_zero.setCurV hr⟩
  · rw [h.advance_scroll hk (Nat.le_antisymm h.row (Nat.not_lt.1 hr))] at e
    exact ⟨_, _, scroll_atCell (by exact h.configured) (by exact h.descriptor) e⟩

theorem AtCell.effect (h : AtCell s k r) (e : Effect s u) : ∃ k' r', AtCell u k' r' := by
  cases e with
  | nothing after => exact ⟨k, r, after ▸ h⟩
  | filled _ d _ after => exact ⟨k, r, after ▸ h.setDevice d⟩
  | drawn _ _ _ d _ after => exact ⟨k, r, after ▸ h.setDevice d⟩
  | read _ _ _ d _ after => exact ⟨k, r, after ▸ h.setDevice d⟩
  | put _ d _ after => exact (h.setDevice d).advanceCursor after
  | down after => exact h.goDown after
  | lineStart after => exact h.goToLineStart after
  | newLine m first after =>
    obtain ⟨k', r', hm⟩ := h.goDown first
    exact hm.goToLineStart after
  | panicked after => exact ⟨k, r, after ▸ h.setPanicMode⟩

/-- A command that completes leaves the cursor on a cell. -/
theorem AtCell.exec {i : Instr} (h : AtCell s k r) (e : exec i s = .next t) : ∃ k' r', AtCell t k' r' := by
  obtain ⟨u, st, data, he, rfl⟩ := exec_effect h.configured e
  obtain ⟨k', r', hu⟩ := h.effect he
  exact ⟨k', r', hu.respond st data⟩

/-- An accepted INIT puts the cursor on cell (0, 0) (R124). -/
theorem construct_atCell {d : Descriptor} (hd : descriptorOk d) (s : State) : AtCell (s.construct d) 0 0 :=
  ⟨rfl, hd, gridW_pos hd, gridH_pos hd, (Nat.zero_mul _).symm, (Nat.zero_mul _).symm⟩

/-- Settles O48: by the effect of a command on a configured block, and by what INIT constructs. -/
theorem commandsKeepTheCursorInTheGrid : Obligations.CommandsKeepTheCursorInTheGrid := by
  refine ⟨fun s t i k r h e => h.exec e, fun s t d hc e ht => ?_⟩
  rcases exec_unconfigured hc e with ⟨cause, rfl⟩ | ⟨d', dev, hi, hd, -, rfl⟩
  · rw [State.reject_configured, hc] at ht; cases ht
  · exact ((construct_atCell hd s).setDevice dev).respond _ _

end Sys2Proof.Machine
end

/-! What the commands keep of the device: a predicate that the framebuffer operations keep, every command keeps. -/

section

namespace Sys2Proof.Machine

variable {s t u : State} {i : Instr} {p : Params} {g : Descriptor} {P : Device → Prop}

/-- All a GetPixelIfVisible that completes can do to the device, whatever the descriptor (R121). -/
theorem getPixelIfVisible_eq_ok {h v : Nat} {o : Option Pixel} {d d' : Device}
    (e : getPixelIfVisible g h v d = .ok (o, d')) :
    (visible g h v ∧ inSpace (pixAddr g h v) ∧
      d' = replayAccess d (.read (pixAddr g h v) (Memory.read32 d.mem (pixAddr g h v)))) ∨ d' = d := by
  unfold getPixelIfVisible at e
  split at e
  · split at e <;> cases e
    obtain ⟨hs, -, hd⟩ := memRead_eq_ok.1 ‹_›
    exact .inl ⟨‹_›, hs, hd⟩
  · cases e; exact .inr rfl

/-- The operations by which the commands reach the device keep `P`. -/
structure KeptByPort (p : Params) (g : Descriptor) (P : Device → Prop) : Prop where
  draw : ∀ {h v q d d'}, P d → drawPixelIfVisible g h v q d = .ok d' → P d'
  get : ∀ {h v o d d'}, P d → getPixelIfVisible g h v d = .ok (o, d') → P d'
  paint : ∀ {h0 v0 w h color d d'}, P d → paint g h0 v0 w h color d = .ok d' → P d'
  shift : ∀ {d d'}, P d → shiftRowsUp p g d = .ok d' → P d'
  clear : ∀ {bg d d'}, P d → clearLastRow p g bg d = .ok d' → P d'

section operations

variable (hP : KeptByPort s.params s.desc P) (h0 : P s.dev)
include hP h0

theorem KeptByPort.scroll (h : scroll s = .next t) : P t.dev := by
  obtain ⟨d1, d2, e1, e2, rfl⟩ := scroll_eq_next h
  exact hP.clear (hP.shift h0 e1) e2

theorem KeptByPort.scrollCheck (h : scrollCheck s = .next t) : P t.dev := by
  rcases scrollCheck_eq_next h with rfl | h
  exacts [h0, hP.scroll h0 h]

theorem KeptByPort.goDown (h : goDown s = .next t) : P t.dev :=
  KeptByPort.scrollCheck (s := s.setCurV _) hP h0 h

theorem KeptByPort.goToLineStart (h : goToLineStart s = .next t) : P t.dev :=
  KeptByPort.scrollCheck (s := s.setCurH 0) hP h0 h

theorem KeptByPort.advanceCursor (h : advanceCursor s = .next t) : P t.dev := by
  unfold Machine.advanceCursor wrapIfFull at h
  split at h
  · exact KeptByPort.scrollCheck (s := ((s.setCurH _).setCurH 0).setCurV _) hP h0 h
  · cases h; exact h0

theorem KeptByPort.effect (h : Effect s u) : P u.dev := by
  cases h with
  | nothing after => exact after ▸ h0
  | filled _ d op after => subst after; exact hP.paint h0 op
  | drawn _ _ _ d op after => subst after; exact hP.draw h0 op
  | read _ _ _ d op after => subst after; exact hP.get h0 op
  | put _ d op after => exact KeptByPort.advanceCursor (s := s.setDevice d) hP (hP.paint h0 op) after
  | down after => exact hP.goDown h0 after
  | lineStart after => exact hP.goToLineStart h0 after
  | newLine m first after =>
    have same := goDown_sameRegisters first
    exact KeptByPort.goToLineStart (same.params ▸ same.desc ▸ hP) (hP.goDown h0 first) after
  | panicked after => subst after; exact h0

/-- A command on a configured block keeps what the framebuffer operations keep. -/
theorem KeptByPort.exec (hc : s.configured = true) (h : exec i s = .next t) : P t.dev := by
  obtain ⟨u, st, data, he, rfl⟩ := exec_effect hc h
  show P u.dev
  exact hP.effect h0 he

end operations

/-! ### The accesses of a command (20_memory.md R69) -/

theorem getPixelIfVisible_accessed {h v : Nat} {o : Option Pixel} {d d' : Device}
    (e : getPixelIfVisible g h v d = .ok (o, d')) : Accessed g d d' := by
  rcases getPixelIfVisible_eq_ok e with ⟨hv, hs, rfl⟩ | rfl
  exacts [.one ⟨hs, h, v, hv, rfl⟩, .refl _]

theorem keptByPort_accessed (p : Params) (g : Descriptor) (d : Device) : KeptByPort p g (Accessed g d) where
  draw h e := h.trans (drawPixelIfVisible_accessed e)
  get h e := h.trans (getPixelIfVisible_accessed e)
  paint h e := h.trans (paint_accessed e)
  shift h e := h.trans (shiftRowsUp_accessed e)
  clear h e := h.trans (clearLastRow_accessed e)

/-- A command that completes has made some accesses, at visible pixels of the descriptor it leaves. -/
theorem exec_accessed (h : exec i s = .next t) : Accessed t.desc s.dev t.dev := by
  cases hc : s.configured with
  | true =>
    rw [(exec_keepsConfiguration hc h).desc]
    exact (keptByPort_accessed _ _ _).exec (.refl _) hc h
  | false =>
    rcases exec_unconfigured hc h with ⟨cause, rfl⟩ | ⟨d, dev, -, -, op, rfl⟩
    exacts [.refl _, paint_accessed op]

theorem Delivered.accessed (h : Delivered s t) : Accessed t.desc s.dev t.dev := by
  cases h with
  | held _ _ after => subst after; exact .refl _
  | rejected _ after => subst after; exact .refl _
  | executed _ run => exact exec_accessed (s := s.setPending none) run

/-! ### The port's invariant and the written screen (20_memory.md R56, R59, R67, 40_pixel_format.md R107) -/

/-- What a command on a configured block keeps of the device. -/
structure DeviceSound (g : Descriptor) (d : Device) : Prop where
  port : DeviceOk d
  screen : ScreenWritten g d.mem

theorem DeviceSound.get (hg : descriptorOk g) {h v : Nat} {o : Option Pixel} {d d' : Device} (hd : DeviceSound g d)
    (e : getPixelIfVisible g h v d = .ok (o, d')) : DeviceSound g d' := by
  rcases getPixelIfVisible_eq_ok e with ⟨-, hs, rfl⟩ | rfl
  exacts [⟨hd.port.read (pixAddr_aligned hg _ _) hs, hd.screen⟩, hd]

theorem keptByPort_deviceSound (p : Params) (hg : descriptorOk g) : KeptByPort p g (DeviceSound g) where
  draw h e := ⟨drawPixelIfVisible_deviceOk hg h.port e, drawPixelIfVisible_screen hg h.screen e⟩
  get h e := h.get hg e
  paint h e := ⟨paint_deviceOk hg h.port e, paint_screen hg h.screen e⟩
  shift h e := ⟨shiftRowsUp_deviceOk hg h.port e, shiftRowsUp_screen hg h.screen e⟩
  clear h e := ⟨clearLastRow_deviceOk hg h.port e, clearLastRow_screen hg h.screen e⟩

/-- The fill of an accepted INIT, from any memory the port's invariant allows. -/
theorem fillScreen_deviceSound (hg : descriptorOk g) {q : Pixel} {d d' : Device} (hd : DeviceOk d)
    (e : fillScreen g q d = .ok d') : DeviceSound g d' :=
  ⟨paint_deviceOk hg hd e, fillScreen_screen hg e⟩

end Sys2Proof.Machine
end

/-! The invariant of a run: reset meets it and every step keeps it. -/

section

namespace Sys2Proof.Machine

variable {s t u : State}

/-! ### Reset (10_state.md R36) -/

theorem deviceOk_empty : DeviceOk { mem := [], trace := [] } :=
  ⟨⟨List.Pairwise.nil, fun _ h => absurd h List.not_mem_nil⟩, rfl, trivial, fun _ h => absurd h List.not_mem_nil⟩

/-- The reset registers are safe with any device that the port's invariant allows. -/
theorem safe_applyReset (s : State) {d : Device} (hd : DeviceOk d) : Safe (s.applyReset.setDevice d) where
  device := hd
  pending _ h := nomatch h
  configured h := nomatch h
  unconfigured _ := ⟨rfl, rfl, rfl, rfl⟩

/-- Settles O45: the reset state is a reset of itself, with the empty device. -/
theorem resetStateIsSafe : Obligations.ResetStateIsSafe := safe_applyReset State.reset deviceOk_empty

/-! ### Commands -/

/-- A configured state is safe where its cursor is on a cell and its device is sound. -/
theorem AtCell.safe {k r : Nat} (h : AtCell s k r) (hd : DeviceSound s.desc s.dev)
    (hp : ∀ w, s.pending = some w → startsTwoWords w = true) : Safe s where
  device := hd.port
  pending := hp
  configured _ := ⟨h.descriptor, ⟨k, r, h.column, h.row, h.curH, h.curV⟩, hd.screen⟩
  unconfigured hc := by rw [h.configured] at hc; cases hc

theorem Safe.atCell (h : Safe s) (hc : s.configured = true) : ∃ k r, AtCell s k r := by
  obtain ⟨hg, ⟨k, r, hk, hr, hh, hv⟩, -⟩ := h.configured hc
  exact ⟨k, r, hc, hg, hk, hr, hh, hv⟩

/-- PENDING, the inputs and the responses matter to safety only in that a held word is an INIT's. -/
theorem Safe.congr (h : Safe s) (hw : ∀ w, t.pending = some w → startsTwoWords w = true)
    (e : t = { s with pending := t.pending, input := t.input, responses := t.responses }) : Safe t := by
  rw [e]
  exact ⟨h.device, hw, fun hc => ⟨(h.configured hc).descriptor, (h.configured hc).cursor, (h.configured hc).screen⟩,
    fun hc => ⟨(h.unconfigured hc).desc, (h.unconfigured hc).curH, (h.unconfigured hc).curV, (h.unconfigured hc).mode⟩⟩

theorem Safe.setInput (h : Safe s) (es : List Event) : Safe (s.setInput es) := h.congr h.pending rfl

theorem Safe.respond (h : Safe s) (st : Status) (data : Rgb24) : Safe (s.respond st data) := h.congr h.pending rfl

theorem Safe.setPending (h : Safe s) {w : Option Word64} (hw : ∀ w', w = some w' → startsTwoWords w' = true) :
    Safe (s.setPending w) := h.congr hw rfl

/-- A command that completes on a safe state leaves a safe state. -/
theorem Safe.exec {i : Instr} (h : Safe s) (e : exec i s = .next t) : Safe t := by
  have hp : ∀ w, t.pending = some w → startsTwoWords w = true := by
    rw [(exec_params_pending e).2]; exact h.pending
  cases hc : s.configured with
  | true =>
    obtain ⟨k, r, hcell⟩ := h.atCell hc
    obtain ⟨k', r', hcell'⟩ := hcell.exec e
    have hd : DeviceSound s.desc t.dev :=
      (keptByPort_deviceSound s.params hcell.descriptor).exec ⟨h.device, (h.configured hc).screen⟩ hc e
    exact hcell'.safe ((exec_keepsConfiguration hc e).desc ▸ hd) hp
  | false =>
    rcases exec_unconfigured hc e with ⟨cause, rfl⟩ | ⟨d, dev, -, hd, op, rfl⟩
    · exact h.respond cause _
    · exact (((construct_atCell hd s).setDevice dev).respond _ _).safe (fillScreen_deviceSound hd h.device op) hp

/-! ### Steps -/

theorem Safe.delivered (h : Safe s) (hd : Delivered s t) : Safe t := by
  have hn : Safe (s.setPending none) := h.setPending fun _ h => nomatch h
  cases hd with
  | held w opcode after => subst after; exact h.setPending fun _ e => Option.some.inj e ▸ opcode
  | rejected cause after => subst after; exact hn.respond cause _
  | executed i run => exact hn.exec run

/-- A command cut short has made the first of its accesses, which the port's invariant allows (R262). -/
theorem Safe.cutShort (h : Safe s) (hd : Delivered s u) (n : Nat) : Safe (cutShort n s u) := by
  obtain ⟨accs, e, -⟩ := hd.accessed
  have hu : DeviceOk (accs.foldl replayAccess s.dev) := e ▸ (h.delivered hd).device
  rw [Machine.cutShort, e, accessesSince_replay]
  exact safe_applyReset s (hu.take h.device n)

/-- Settles O47, by the cases of a step. -/
theorem stepsKeepStatesSafe : Obligations.StepsKeepStatesSafe := by
  intro s t h e
  cases step_stepped e with
  | idle _ after => exact after ▸ h
  | word w rest _ run => exact (h.setInput rest).delivered run
  | reset rest _ after => subst after; exact safe_applyReset (s.setInput rest) h.device
  | cut w n rest u _ run after => subst after; exact (h.setInput rest).cutShort run n
  | called c rest _ after => subst after; exact (h.setInput rest).setInput _

end Sys2Proof.Machine
end

/-! What steps keep of the constants and the configuration, the grid, and the descriptor registers before INIT. -/

section

namespace Sys2Proof.Machine

variable {s t : State}

theorem Delivered.params (h : Delivered s t) : t.params = s.params := by
  cases h with
  | held _ _ after => subst after; rfl
  | rejected _ after => subst after; rfl
  | executed _ run => exact (exec_params_pending (s := s.setPending none) run).1

/-- Settles O33, by the cases of a step: no command writes the parameters, and a reset leaves them. -/
theorem constantsNeverChange : Obligations.ConstantsNeverChange := by
  intro s t e
  cases step_stepped e with
  | idle _ after => rw [after]
  | word w rest _ run => exact run.params
  | reset rest _ after => rw [after]; rfl
  | cut w n rest u _ _ after => rw [after]; rfl
  | called c rest _ after => rw [after]; rfl

theorem Delivered.keepsConfiguration (hc : s.configured = true) (h : Delivered s t) : KeepsConfiguration s t := by
  cases h with
  | held _ _ after => subst after; exact ⟨rfl, rfl, .inl rfl⟩
  | rejected _ after => subst after; exact ⟨rfl, rfl, .inl rfl⟩
  | executed _ run =>
    have kept := exec_keepsConfiguration (s := s.setPending none) hc run
    exact ⟨kept.configured, kept.desc, kept.mode⟩

/-- A step of a configured block whose input is no reset keeps the configuration. -/
theorem step_keepsConfiguration (h : step s = .next t) (hc : s.configured = true)
    (hr : ∀ rest, s.input ≠ .reset :: rest) (hw : ∀ w n rest, s.input ≠ .wordThenReset w n :: rest) :
    KeepsConfiguration s t := by
  cases step_stepped h with
  | idle _ after => exact after ▸ ⟨rfl, rfl, .inl rfl⟩
  | word w rest _ run =>
    have kept := Delivered.keepsConfiguration (s := s.setInput rest) hc run
    exact ⟨kept.configured, kept.desc, kept.mode⟩
  | reset rest before => exact absurd before (hr rest)
  | cut w n rest u before => exact absurd before (hw w n rest)
  | called c rest _ after => subst after; exact ⟨rfl, rfl, .inl rfl⟩

/-- Settles O31, by the cases of a step. -/
theorem onlyResetUndoesConfigurationOrPanic : Obligations.OnlyResetUndoesConfigurationOrPanic := by
  intro s t e hc hr hw
  have kept := step_keepsConfiguration e hc hr hw
  exact ⟨kept.configured.trans hc, kept.desc, fun hm => kept.mode.elim (·.trans hm) id, kept.mode⟩

/-- Settles O44: a rejection reads no descriptor register, and an accepted INIT overwrites all five. -/
theorem unsetDescriptorRegistersAreNeverRead : Obligations.UnsetDescriptorRegistersAreNeverRead := by
  intro s t g i hc e
  rcases init_or_rejected i with ⟨d, rfl, hd⟩ | ⟨cause, hr⟩
  · rw [exec_init_of_ok hd hc] at e
    obtain ⟨dev, -, e2⟩ := onDevice_eq_next.1 e
    have ht : t.configured = true := by cases e2; rfl
    rw [exec_init_of_ok hd (by exact hc), if_pos ht]
    exact e
  · rw [hr s hc] at e
    cases e
    rw [hr _ (by exact hc), if_neg (by rw [State.reject_configured, hc]; decide)]
    rfl

/-- The grid has at most as many columns and rows as the resolution has pixels (R24). -/
theorem gridW_le (p : Params) (g : Descriptor) : gridW p g ≤ g.hres.toNat := Nat.div_le_self _ _
theorem gridH_le (p : Params) (g : Descriptor) : gridH p g ≤ g.vres.toNat := Nat.div_le_self _ _

/-- The cell sizes are R5's ranges. -/
theorem exists_params_cell {w h : Nat} :
    (∃ p, cw p = w ∧ ch p = h) ↔ (1 ≤ w ∧ w ≤ 320) ∧ 1 ≤ h ∧ h ≤ 200 := by
  constructor
  · rintro ⟨p, rfl, rfl⟩
    exact ⟨⟨cw_pos p, cw_le p⟩, ch_pos p, ch_le p⟩
  · rintro ⟨⟨hw, hw'⟩, hh, hh'⟩
    exact ⟨⟨⟨w - 1, by omega⟩, ⟨h - 1, by omega⟩, [], default, default⟩, Nat.sub_add_cancel hw, Nat.sub_add_cancel hh⟩

/-- Settles O18: the grid is a quotient, so what it covers is the resolution less a remainder. -/
theorem gridIsTheResolutionInWholeCells : Obligations.GridIsTheResolutionInWholeCells := by
  refine ⟨fun p g => ⟨rfl, rfl, fun hg => ?_, gridW_mul_le p g, gridH_mul_le p g,
    fun h => Nat.div_mul_cancel (Nat.dvd_of_mod_eq_zero h), fun h => Nat.div_mul_cancel (Nat.dvd_of_mod_eq_zero h),
    fun _ _ _ _ hc hr hx hy => inGrid_cell hc hr hx hy⟩, fun _ _ => exists_params_cell⟩
  exact ⟨gridW_pos hg, (gridW_le p g).trans hg.1.2, gridH_pos hg, (gridH_le p g).trans hg.2.1.2⟩

end Sys2Proof.Machine
end

/-! Memory accesses (20_memory.md): the bounds of a pixel's address, where every access goes, and what a step does to
memory and to the port's history. -/

section

namespace Sys2Proof.Machine

variable {s t u : State} {g : Descriptor} {d d' : Device}

/-! ### Addresses (R52) -/

/-- A visible pixel is below scanline 1080 and column 1920, and a stride has 16 bits. -/
theorem pixAddr_offset_lt_max (hh : g.hres.toNat ≤ 1920) (hv : g.vres.toNat ≤ 1080) {h v : Nat} (hp : visible g h v) :
    v * g.stride.toNat + h < 1080 * 65535 + 1920 := by
  obtain ⟨hcol, hrow⟩ := hp
  have hstride : g.stride.toNat ≤ 65535 := Nat.le_of_lt_succ g.stride.isLt
  calc v * g.stride.toNat + h
    _ ≤ 1080 * 65535 + h := Nat.add_le_add_right (Nat.mul_le_mul (hrow.le.trans hv) hstride) h
    _ < 1080 * 65535 + 1920 := Nat.add_lt_add_left (hcol.trans_le hh) _

/-- Settles O11: an offset is below the region's number of words, and the address calculator is injective. -/
theorem visiblePixelsLieInTheRegion : Obligations.VisiblePixelsLieInTheRegion := by
  intro g h v hg hv
  have ⟨⟨_, hh⟩, ⟨_, hvres⟩, hs, _, hend⟩ := hg
  have hmax := pixAddr_offset_lt_max hh hvres hv
  refine ⟨rfl, ?_, pixAddr_lt_end hg hv, hend, hmax, hmax.trans (by decide), pixAddr_aligned hg h v,
    fun h' v' a hv' hin hin' => pixAddr_overlap hg hv' hv hin'.1 hin'.2 hin.1 hin.2⟩
  rw [Nat.mul_assoc]
  exact Nat.mul_le_mul_left 4 (pixAddr_offset_lt hs hv)

/-! ### Every access (R53, R58, R69) -/

/-- Settles O39: the accesses of a command that completes are at visible pixels. -/
theorem everyAccessIsAtAVisiblePixel : Obligations.EveryAccessIsAtAVisiblePixel := by
  intro s t i h
  obtain ⟨new, e, hnew⟩ := (exec_accessed h).trace
  exact ⟨new, e, fun acc hm => (hnew acc hm).2⟩

/-- Accesses inside the address space keep memory canonical. -/
theorem Accessed.wf (h : Accessed g d d') (hd : Memory.wf d.mem) : Memory.wf d'.mem := by
  obtain ⟨accs, rfl, ha⟩ := h
  exact wf_replay (fun acc hm => (ha acc hm).1) hd

/-- A command cut short has made the first of its accesses (R262). -/
theorem Delivered.accessed_cutShort (h : Delivered s u) (n : Nat) : Accessed u.desc s.dev (cutShort n s u).dev := by
  obtain ⟨accs, e, ha⟩ := h.accessed
  refine ⟨accs.take n, ?_, fun acc hm => ha acc (List.mem_of_mem_take hm)⟩
  rw [cutShort, e, accessesSince_replay, State.setDevice_dev]

/-- A step does nothing to the device but some accesses, at visible pixels of one descriptor. -/
theorem step_accessed (h : step s = .next t) : ∃ g, Accessed g s.dev t.dev := by
  cases step_stepped h with
  | idle _ after => exact ⟨s.desc, after ▸ .refl _⟩
  | word w rest _ run => exact ⟨t.desc, run.accessed⟩
  | reset rest _ after => exact ⟨s.desc, after ▸ .refl _⟩
  | cut w n rest u _ run after => exact ⟨u.desc, after ▸ run.accessed_cutShort n⟩
  | called c rest _ after => exact ⟨s.desc, after ▸ .refl _⟩

/-- Settles O49: a step is some accesses, which add to the history and keep memory canonical. -/
theorem stepsKeepMemoryCanonical : Obligations.StepsKeepMemoryCanonical := by
  intro s t h hm
  obtain ⟨g, hacc⟩ := step_accessed h
  obtain ⟨new, e, -⟩ := hacc.trace
  exact ⟨hacc.wf hm, new, e⟩

end Sys2Proof.Machine
end

/-! A step always answers (20_memory.md R66, 30_encoding.md R88, 60_exceptions.md R230, R247): the descriptor that INIT
accepted is all that a command needs. -/

section

namespace Sys2Proof.Machine

variable {s : State}

/-- A sequence completes where its first part does and its second does from every state the first may leave. -/
theorem andThen_completes {r : Result} {k : State → Result} (hr : ∃ m, r = .next m)
    (hk : ∀ m, r = .next m → ∃ t, k m = .next t) : ∃ t, andThen r k = .next t := by
  obtain ⟨m, e⟩ := hr
  obtain ⟨t, e'⟩ := hk m e
  exact ⟨t, andThen_eq_next.2 ⟨m, e, e'⟩⟩

/-- A response ends a command whatever came before it. -/
theorem andThen_respondOk_completes {r : Result} (hr : ∃ m, r = .next m) : ∃ t, andThen r respondOk = .next t :=
  andThen_completes hr fun _ _ => ⟨_, rfl⟩

/-! ### The cursor's moves (43_charbuffer.md R162, R167 to R172) -/

theorem scroll_completes (hg : descriptorOk s.desc) : ∃ t, scroll s = .next t := ⟨_, scroll_eq hg⟩

theorem scrollCheck_completes (hg : descriptorOk s.desc) : ∃ t, scrollCheck s = .next t := by
  unfold scrollCheck
  split
  exacts [scroll_completes hg, ⟨s, rfl⟩]

theorem goDown_completes (hg : descriptorOk s.desc) : ∃ t, goDown s = .next t :=
  scrollCheck_completes (s := s.setCurV _) hg

theorem goToLineStart_completes (hg : descriptorOk s.desc) : ∃ t, goToLineStart s = .next t :=
  scrollCheck_completes (s := s.setCurH 0) hg

theorem advanceCursor_completes (hg : descriptorOk s.desc) : ∃ t, advanceCursor s = .next t := by
  unfold advanceCursor wrapIfFull
  split
  exacts [scrollCheck_completes (s := ((s.setCurH _).setCurH 0).setCurV _) hg, ⟨_, rfl⟩]

/-! ### Commands -/

/-- A command completes before INIT, and after it under a descriptor that INIT accepts, wherever the cursor stands. -/
theorem exec_completes (hg : s.configured = true → descriptorOk s.desc) (i : Instr) : ∃ t, exec i s = .next t := by
  cases hc : s.configured with
  | false =>
    rcases init_or_rejected i with ⟨g, rfl, hok⟩ | ⟨cause, hr⟩
    · rw [exec_init_of_ok hok hc, onDevice_eq (fillScreen_eq hok _ _)]
      exact ⟨_, rfl⟩
    · exact ⟨_, hr s hc⟩
  | true =>
    have hg := hg hc
    have body {b : Result} (h : ∃ t, b = .next t) : ∃ t, ifConfigured s b = .next t := by
      rwa [ifConfigured_of_true hc]
    cases i with
    | init g => exact ⟨_, if_pos hc⟩
    | fill q => exact body ⟨_, onDevice_eq (fillScreen_eq hg q s.dev)⟩
    | drawpx h v q => exact body ⟨_, onDevice_eq (drawPixelIfVisible_eq hg h.toNat v.toNat q s.dev)⟩
    | readpx h v =>
      refine body ?_
      by_cases hv : visible s.desc h.toNat v.toNat
      · rw [getPixelIfVisible_eq hg hv]; exact ⟨_, rfl⟩
      · rw [getPixelIfVisible_absent hv]; exact ⟨_, rfl⟩
    | putc c =>
      refine body ?_
      split
      · rw [onDevice_eq (blitGlyph_eq hg _ _ _ _ _)]
        exact andThen_respondOk_completes (advanceCursor_completes (by exact hg))
      · exact ⟨_, rfl⟩
    | godown => exact body (andThen_respondOk_completes (goDown_completes hg))
    | linestart => exact body (andThen_respondOk_completes (goToLineStart_completes hg))
    | newline =>
      refine body (andThen_respondOk_completes (andThen_completes (goDown_completes hg) fun m e => ?_))
      exact goToLineStart_completes ((goDown_sameRegisters e).desc ▸ hg)
    | setpanic => exact body ⟨_, rfl⟩

/-! ### Words and steps -/

/-- A framed command runs or is rejected (R88). -/
theorem runFramed_completes (hg : s.configured = true → descriptorOk s.desc) (w0 w1 : Word64) :
    ∃ t, runFramed w0 w1 s = .next t := by
  unfold runFramed
  split
  exacts [exec_completes hg _, ⟨_, rfl⟩]

theorem deliverWord_completes (hg : s.configured = true → descriptorOk s.desc) (w : Word64) :
    ∃ t, deliverWord w s = .next t := by
  unfold deliverWord
  split
  · exact runFramed_completes (s := s.setPending none) hg _ _
  · split
    exacts [⟨_, rfl⟩, runFramed_completes hg _ _]

theorem takeEvent_completes (hg : s.configured = true → descriptorOk s.desc) (e : Event) :
    ∃ t, takeEvent e s = .next t := by
  cases e with
  | word w => exact deliverWord_completes hg w
  | reset => exact ⟨_, rfl⟩
  | wordThenReset w n => exact andThen_completes (deliverWord_completes hg w) fun _ _ => ⟨_, rfl⟩
  | call c => exact ⟨_, rfl⟩

/-- Settles O46: of a safe state a step needs only that its descriptor passed INIT's checks. -/
theorem aSafeStateNeverStops : Obligations.ASafeStateNeverStops := by
  intro s h
  have hg : s.configured = true → descriptorOk s.desc := fun hc => (h.configured hc).descriptor
  rw [step, nextStep]
  cases s.input with
  | nil => exact ⟨s, rfl⟩
  | cons e rest => exact takeEvent_completes (s := s.setInput rest) hg e

end Sys2Proof.Machine
end

/-! The round trip of 30_encoding.md R71 to R83: a command's words decode to it, and words that decode to a command are
its encoding. -/

section

namespace Sys2Proof

variable {w w0 w1 : Word64} {fmt : Format} {i : Instr}

/-! ### Opcodes (R73, R82) -/

/-- The opcodes of each format. -/
theorem opcode_of_mem_formatOf : ∀ (opc : Byte), ∀ fmt ∈ formatOf opc,
    (opc = 0x01#8 ∧ fmt = .i) ∨ (opc = 0x02#8 ∧ fmt = .f) ∨ (opc = 0x03#8 ∧ fmt = .p) ∨ (opc = 0x04#8 ∧ fmt = .q) ∨
      (opc = 0x05#8 ∧ fmt = .c) ∨ ((opc = 0x06#8 ∨ opc = 0x07#8 ∨ opc = 0x08#8 ∨ opc = 0x09#8) ∧ fmt = .n) := by
  decide

/-- A row of the opcode table: the format of `w0`'s opcode, and the command it names with the operands of the words. -/
inductive OpcodeRow (w0 w1 : Word64) : Format → Instr → Prop
  | init (opcode : opcodeField w0 = 0x01#8) : OpcodeRow w0 w1 .i (.init (descriptorField w0 w1))
  | fill (opcode : opcodeField w0 = 0x02#8) : OpcodeRow w0 w1 .f (.fill (pix (w0.extractLsb' 0 24)))
  | drawpx (opcode : opcodeField w0 = 0x03#8) :
      OpcodeRow w0 w1 .p (.drawpx (w0.extractLsb' 40 16) (w0.extractLsb' 24 16) (pix (w0.extractLsb' 0 24)))
  | readpx (opcode : opcodeField w0 = 0x04#8) :
      OpcodeRow w0 w1 .q (.readpx (w0.extractLsb' 40 16) (w0.extractLsb' 24 16))
  | putc (opcode : opcodeField w0 = 0x05#8) : OpcodeRow w0 w1 .c (.putc (w0.extractLsb' 0 8))
  | godown (opcode : opcodeField w0 = 0x06#8) : OpcodeRow w0 w1 .n .godown
  | linestart (opcode : opcodeField w0 = 0x07#8) : OpcodeRow w0 w1 .n .linestart
  | newline (opcode : opcodeField w0 = 0x08#8) : OpcodeRow w0 w1 .n .newline
  | setpanic (opcode : opcodeField w0 = 0x09#8) : OpcodeRow w0 w1 .n .setpanic

/-- The table is what the decoder reads. -/
theorem opcodeRow_iff :
    OpcodeRow w0 w1 fmt i ↔ formatOf (opcodeField w0) = some fmt ∧ commandOf w0 w1 = some i := by
  constructor
  · intro row
    cases row <;> rw [commandOf, ‹opcodeField w0 = _›] <;> exact ⟨rfl, rfl⟩
  · rintro ⟨hf, hi⟩
    rcases opcode_of_mem_formatOf _ fmt hf with
      ⟨ho, rfl⟩ | ⟨ho, rfl⟩ | ⟨ho, rfl⟩ | ⟨ho, rfl⟩ | ⟨ho, rfl⟩ | ⟨ho | ho | ho | ho, rfl⟩ <;>
      rw [commandOf, ho] at hi <;> cases hi
    exacts [.init ho, .fill ho, .drawpx ho, .readpx ho, .putc ho, .godown ho, .linestart ho, .newline ho, .setpanic ho]

theorem decodePair_of_row (row : OpcodeRow w0 w1 fmt i) (hm : w0 &&& reservedMask fmt = 0#64) :
    decodePair w0 w1 = .command i :=
  have ⟨hf, hi⟩ := opcodeRow_iff.1 row
  decodePair_of_opcode hf hi hm

theorem row_of_decodePair (h : decodePair w0 w1 = .command i) :
    ∃ fmt, OpcodeRow w0 w1 fmt i ∧ w0 &&& reservedMask fmt = 0#64 := by
  obtain ⟨fmt, hf, hi, hm⟩ := decodePair_eq_command h
  exact ⟨fmt, opcodeRow_iff.2 ⟨hf, hi⟩, hm⟩

/-! ### Framing (R71) -/

/-- The two-word commands are those of format I. -/
theorem startsTwoWords_iff_format : startsTwoWords w = true ↔ formatOf (opcodeField w) = some .i :=
  startsTwoWords_iff.trans ((by decide : ∀ opc : Byte, opc = 0x01#8 ↔ formatOf opc = some .i) _)

theorem startsTwoWords_eq_false_of_format (h : formatOf (opcodeField w) ≠ some .i) : startsTwoWords w = false :=
  Bool.eq_false_iff.2 fun hs => h (startsTwoWords_iff_format.1 hs)

theorem OpcodeRow.startsTwoWords_eq_false (row : OpcodeRow w0 w1 fmt i) (hfmt : fmt ≠ .i) :
    startsTwoWords w0 = false :=
  startsTwoWords_eq_false_of_format fun h => hfmt (Option.some.inj ((opcodeRow_iff.1 row).1.symm.trans h))

/-! ### A command's words decode to it -/

/-- What the framing and the decoder make of a command's encoding: one word that is whole, or the two of an INIT. -/
inductive EncodingDecodes (i : Instr) : Prop
  | one (w : Word64) (words : encode i = [w]) (whole : startsTwoWords w = false)
      (decodes : decodePair w 0#64 = .command i)
  | two (w0 w1 : Word64) (words : encode i = [w0, w1]) (first : startsTwoWords w0 = true)
      (decodes : decodePair w0 w1 = .command i)

theorem encodingDecodes_of_row (row : OpcodeRow w 0#64 fmt i) (hfmt : fmt ≠ .i) (hm : w &&& reservedMask fmt = 0#64)
    (he : encode i = [w]) : EncodingDecodes i :=
  .one w he (row.startsTwoWords_eq_false hfmt) (decodePair_of_row row hm)

theorem encodingDecodes (i : Instr) : EncodingDecodes i := by
  cases i with
  | init d =>
    obtain ⟨ho, hm, hd⟩ := formatI_fields 0x01#8 (fmtBit d.fmt) d.stride d.hres d.vres d.base
    have row := OpcodeRow.init (w1 := d.base) ho
    rw [hd, fmtOfBit_fmtBit] at row
    exact .two _ _ rfl (startsTwoWords_iff.2 ho) (decodePair_of_row row hm)
  | fill p =>
    obtain ⟨ho, hm, hp⟩ := formatF_fields 0x02#8 (rgb24 p)
    have row := OpcodeRow.fill (w1 := 0#64) ho
    rw [hp, pix_rgb24] at row
    exact encodingDecodes_of_row row (by decide) hm rfl
  | drawpx x y p =>
    obtain ⟨ho, hx, hy, hp⟩ := formatP_fields 0x03#8 x y (rgb24 p)
    have row := OpcodeRow.drawpx (w1 := 0#64) ho
    rw [hx, hy, hp, pix_rgb24] at row
    exact encodingDecodes_of_row row (by decide) (formatP_reserved _) rfl
  | readpx x y =>
    obtain ⟨ho, hx, hy, -⟩ := formatP_fields 0x04#8 x y 0#24
    have row := OpcodeRow.readpx (w1 := 0#64) ho
    rw [hx, hy] at row
    exact encodingDecodes_of_row row (by decide) (formatQ_reserved _ _ _) rfl
  | putc c =>
    obtain ⟨ho, hm, hc⟩ := formatC_fields 0x05#8 c
    have row := OpcodeRow.putc (w1 := 0#64) ho
    rw [hc] at row
    exact encodingDecodes_of_row row (by decide) hm rfl
  | godown => exact encodingDecodes_of_row (.godown (formatN_fields _).1) (by decide) (formatN_fields _).2 rfl
  | linestart => exact encodingDecodes_of_row (.linestart (formatN_fields _).1) (by decide) (formatN_fields _).2 rfl
  | newline => exact encodingDecodes_of_row (.newline (formatN_fields _).1) (by decide) (formatN_fields _).2 rfl
  | setpanic => exact encodingDecodes_of_row (.setpanic (formatN_fields _).1) (by decide) (formatN_fields _).2 rfl

/-- Settles O1: the opcode field frames a command's words, and the framed words decode to it. -/
theorem decodingAnEncodedCommandGivesItBack : Obligations.DecodingAnEncodedCommandGivesItBack := by
  intro i rest
  cases encodingDecodes i with
  | one w words whole decodes => simp [words, decodeStream, whole, decodes]
  | two w0 w1 words first decodes => simp [words, decodeStream, first, decodes]

/-! ### Words that decode to a command are its encoding -/

/-- Bits that are 0 under a mask are 0 where the mask is all ones. -/
theorem extractLsb'_eq_zero_of_mask {mask : Word64} {k n : Nat} (h : w &&& mask = 0#64)
    (hmask : mask.extractLsb' k n = BitVec.allOnes n) : w.extractLsb' k n = 0#n := by
  rw [← BitVec.and_allOnes (x := w.extractLsb' k n), ← hmask, ← BitVec.extractLsb'_and, h, BitVec.extractLsb'_zero]

/-- The FMT bit of an INIT is its bit 48 (R23, R79). -/
theorem fmtBit_fmtOfBit (w : Word64) : fmtBit (fmtOfBit (w.getLsbD 48)) = w.extractLsb' 48 1 := by
  have hbit : w.extractLsb' 48 1 = BitVec.ofBool (w.getLsbD 48) := by grind
  rw [hbit]
  cases w.getLsbD 48 <;> rfl

/-! A word is its opcode, its reserved bits and its operand fields, in each format. -/

section words

variable {o : Byte} (ho : opcodeField w = o)
include ho

theorem formatN_word (hm : w &&& reservedMask .n = 0#64) : o ++ 0#56 = w := by
  rw [← ho, opcodeField, ← extractLsb'_eq_zero_of_mask (k := 0) (n := 56) hm rfl]
  grind

theorem formatC_word (hm : w &&& reservedMask .c = 0#64) : o ++ 0#48 ++ w.extractLsb' 0 8 = w := by
  rw [← ho, opcodeField, ← extractLsb'_eq_zero_of_mask (k := 8) (n := 48) hm rfl]
  grind

theorem formatF_word (hm : w &&& reservedMask .f = 0#64) : o ++ 0#32 ++ w.extractLsb' 0 24 = w := by
  rw [← ho, opcodeField, ← extractLsb'_eq_zero_of_mask (k := 24) (n := 32) hm rfl]
  grind

/-- Formats P and Q: Q's low 24 bits are reserved. -/
theorem formatP_word : o ++ w.extractLsb' 40 16 ++ w.extractLsb' 24 16 ++ w.extractLsb' 0 24 = w := by
  rw [← ho, opcodeField]
  grind

theorem formatI_word (hm : w &&& reservedMask .i = 0#64) :
    o ++ 0#7 ++ w.extractLsb' 48 1 ++ w.extractLsb' 32 16 ++ w.extractLsb' 16 16 ++ w.extractLsb' 0 16 = w := by
  rw [← ho, opcodeField, ← extractLsb'_eq_zero_of_mask (k := 49) (n := 7) hm rfl]
  grind

end words

/-- Words that decode to a command are its words, by R71's framing. -/
theorem encode_of_decodePair (h : decodePair w0 w1 = .command i) :
    encode i = if startsTwoWords w0 then [w0, w1] else [w0] := by
  obtain ⟨fmt, row, hm⟩ := row_of_decodePair h
  have one {w : Word64} (hfmt : fmt ≠ .i) (hw : w = w0) : [w] = if startsTwoWords w0 then [w0, w1] else [w0] := by
    simp [row.startsTwoWords_eq_false hfmt, hw]
  cases row with
  | init ho => rw [if_pos (startsTwoWords_iff.2 ho), encode, descriptorField, fmtBit_fmtOfBit, formatI_word ho hm]
  | fill ho => exact one (by decide) (by rw [rgb24_pix, formatF_word ho hm])
  | drawpx ho => exact one (by decide) (by rw [rgb24_pix, formatP_word ho])
  | readpx ho =>
    refine one (by decide) ?_
    rw [← extractLsb'_eq_zero_of_mask (k := 0) (n := 24) hm rfl, formatP_word ho]
  | putc ho => exact one (by decide) (formatC_word ho hm)
  | godown ho => exact one (by decide) (formatN_word ho hm)
  | linestart ho => exact one (by decide) (formatN_word ho hm)
  | newline ho => exact one (by decide) (formatN_word ho hm)
  | setpanic ho => exact one (by decide) (formatN_word ho hm)

/-- All that the decoder takes from a stream: one word, or two where the first is an INIT's. -/
theorem decodeStream_eq_whole {ws rest : List Word64} {d : Decoded} (h : decodeStream ws = .whole d rest) :
    ∃ w0 w1, decodePair w0 w1 = d ∧ ws = (if startsTwoWords w0 then [w0, w1] else [w0]) ++ rest := by
  match ws with
  | [] => cases h
  | [w0] =>
    cases hs : startsTwoWords w0 <;> simp only [decodeStream, hs] at h <;> cases h
    exact ⟨w0, 0#64, rfl, by simp [hs]⟩
  | w0 :: w1 :: ws =>
    cases hs : startsTwoWords w0 <;> simp only [decodeStream, hs] at h <;> cases h
    · exact ⟨w0, 0#64, rfl, by simp [hs]⟩
    · exact ⟨w0, w1, rfl, by simp [hs]⟩

/-- Settles O2: a decoding fixes the opcode, the operand fields and the reserved bits, which are all of a word. -/
theorem everyDecodedCommandHasOneEncoding : Obligations.EveryDecodedCommandHasOneEncoding := by
  intro ws rest i h
  obtain ⟨w0, w1, hd, rfl⟩ := decodeStream_eq_whole h
  rw [encode_of_decodePair hd]

end Sys2Proof
end

/-! A word on the command port (30_encoding.md R70, R71, R81, R82, 10_state.md R34): what a step does with it, and the
words of one command. -/

section

namespace Sys2Proof.Machine

variable {s : State} {w w0 w1 : Word64} {rest : List Event}

/-! ### Framed commands (60_exceptions.md R233) -/

theorem runFramed_of_command {i : Instr} (h : decodePair w0 w1 = .command i) (s : State) :
    runFramed w0 w1 s = exec i s := by
  rw [runFramed, h]

theorem runFramed_of_malformed {cause : Malformed} (h : decodePair w0 w1 = .malformed cause) (s : State) :
    runFramed w0 w1 s = .next (s.reject (malformedStatus cause)) := by
  rw [runFramed, h]

/-! ### A step on a word -/

/-- On an idle port a word that starts no INIT is a command by itself. -/
theorem step_of_oneWord (hp : s.pending = none) (hi : s.input = .word w :: rest) (hw : startsTwoWords w = false) :
    step s = runFramed w 0#64 (s.setInput rest) := by
  rw [step_of_word hi, deliverWord, State.setInput_pending, hp]
  simp only [hw, Bool.false_eq_true, if_false]

/-- On an idle port an INIT's first word is held. -/
theorem step_of_firstWord (hp : s.pending = none) (hi : s.input = .word w :: rest) (hw : startsTwoWords w = true) :
    step s = .next ((s.setInput rest).setPending (some w)) := by
  rw [step_of_word hi, deliverWord, State.setInput_pending, hp]
  exact if_pos hw

/-- The word after a held one completes the pair, whatever it is. -/
theorem step_of_secondWord (hp : s.pending = some w0) (hi : s.input = .word w1 :: rest) :
    step s = runFramed w0 w1 ((s.setInput rest).setPending none) := by
  rw [step_of_word hi, deliverWord, State.setInput_pending, hp]

theorem step_of_noInput (hi : s.input = []) : step s = .next s := by
  rw [step, nextStep, hi]

/-- Settles O6, case by case of what is on the port. -/
theorem stepRunsTheDecodedCommand : Obligations.StepRunsTheDecodedCommand :=
  ⟨fun s _ rest _ hp hi hw hd => (step_of_oneWord hp hi hw).trans (runFramed_of_command hd (s.setInput rest)),
   fun _ _ _ hp hi hw => step_of_firstWord hp hi hw,
   fun s _ _ rest _ hp hi hd =>
    (step_of_secondWord hp hi).trans (runFramed_of_command hd ((s.setInput rest).setPending none)),
   fun _ hi => step_of_noInput hi⟩

/-- Settles O7: the framing takes exactly the words of the encoding, and they decode to the command. -/
theorem wordsOfACommandRunIt : Obligations.WordsOfACommandRunIt := by
  intro s i rest hp hi
  cases encodingDecodes i with
  | one w words whole decodes =>
    have hin : s.input = .word w :: rest := by simp [hi, commandEvents, words]
    rw [if_neg (by simp [words]), step_of_oneWord hp hin whole, runFramed_of_command decodes]
    rfl
  | two w0 w1 words first decodes =>
    have hin : s.input = .word w0 :: .word w1 :: rest := by simp [hi, commandEvents, words]
    have empty : s.setPending none = s := State.setPending_of_none hp
    rw [if_pos (by simp [words]), step_of_firstWord hp hin first, andThen_next,
      step_of_secondWord (w0 := w0) (w1 := w1) (rest := rest) rfl rfl, runFramed_of_command decodes]
    exact congrArg (fun t : State => exec i { t with input := rest }) empty

/-! ### Malformed words -/

/-- The reserved opcodes are 0x00 and those from 0x0A up (R82). -/
theorem formatOf_eq_none_iff : ∀ opc : Byte, formatOf opc = none ↔ opc = 0x00#8 ∨ 0x0A ≤ opc.toNat := by
  decide

/-- The opcodes of format N (R73). -/
theorem formatOf_eq_n : ∀ opc : Byte, 0x06 ≤ opc.toNat → opc.toNat ≤ 0x09 → formatOf opc = some .n := by
  decide

/-- A word of no defined opcode is rejected by the step that takes it. -/
theorem step_of_reservedOpcode (hp : s.pending = none) (hi : s.input = .word w :: rest)
    (hf : formatOf (opcodeField w) = none) : step s = .next ((s.setInput rest).reject .rejOpcode) := by
  have hw : startsTwoWords w = false := startsTwoWords_eq_false_of_format (by simp [hf])
  rw [step_of_oneWord hp hi hw, runFramed_of_malformed (decodePair_of_no_format hf)]
  rfl

/-- A one-word command with a reserved bit set is rejected by the step that takes it. -/
theorem step_of_reservedBits {fmt : Format} (hp : s.pending = none) (hi : s.input = .word w :: rest)
    (hf : formatOf (opcodeField w) = some fmt) (hfmt : fmt ≠ .i) (hm : w &&& reservedMask fmt ≠ 0#64) :
    step s = .next ((s.setInput rest).reject .rejReserved) := by
  have hw : startsTwoWords w = false := startsTwoWords_eq_false_of_format (by simp [hf, hfmt])
  rw [step_of_oneWord hp hi hw, runFramed_of_malformed (decodePair_of_reserved hf hm)]
  rfl

/-- Settles O4: a reserved opcode has no format. -/
theorem reservedOpcodesAreRejected : Obligations.ReservedOpcodesAreRejected := by
  intro s w rest hp hi ho
  exact step_of_reservedOpcode hp hi ((formatOf_eq_none_iff _).2 ho)

/-- The formats of one word that have reserved bits, and their masks (R233). -/
theorem format_of_mask {opc : Byte} {mask : Word64}
    (h : (opc = 0x02#8 ∧ mask = 0x00FFFFFFFF000000#64) ∨ (opc = 0x04#8 ∧ mask = 0x0000000000FFFFFF#64) ∨
      (opc = 0x05#8 ∧ mask = 0x00FFFFFFFFFFFF00#64) ∨
      (0x06 ≤ opc.toNat ∧ opc.toNat ≤ 0x09 ∧ mask = 0x00FFFFFFFFFFFFFF#64)) :
    ∃ fmt, formatOf opc = some fmt ∧ fmt ≠ .i ∧ mask = reservedMask fmt := by
  rcases h with ⟨rfl, rfl⟩ | ⟨rfl, rfl⟩ | ⟨rfl, rfl⟩ | ⟨hlo, hhi, rfl⟩
  · exact ⟨.f, rfl, by decide, rfl⟩
  · exact ⟨.q, rfl, by decide, rfl⟩
  · exact ⟨.c, rfl, by decide, rfl⟩
  · exact ⟨.n, formatOf_eq_n _ hlo hhi, by decide, rfl⟩

/-- Settles O5: the masks are those of the opcodes' formats, and an INIT is rejected with its second word. -/
theorem reservedBitsAreRejected : Obligations.ReservedBitsAreRejected := by
  constructor
  · intro s w mask rest hp hi hmask hm
    obtain ⟨fmt, hf, hfmt, rfl⟩ := format_of_mask hmask
    exact step_of_reservedBits hp hi hf hfmt hm
  · intro s w0 w1 rest hp hi ho hm
    have hf : formatOf (opcodeField w0) = some .i := by rw [opcodeField, ho]; rfl
    rw [step_of_secondWord hp hi, runFramed_of_malformed (decodePair_of_reserved hf hm)]
    rfl

end Sys2Proof.Machine
end

/-! Responses (30_encoding.md R84, R85, 60_exceptions.md R231, R233): the layout of a response word, and the statuses
that each command can answer. -/

section

namespace Sys2Proof.Machine

variable {s t : State} {i : Instr} {w0 w1 : Word64} {sts : List Status}

/-- Settles O36: the three fields of a response word, and the codes of R231. -/
theorem responseWordLayout : Obligations.ResponseWordLayout := by
  refine ⟨fun st data => ?_, rfl, rfl, rfl, rfl, rfl, rfl, rfl, rfl⟩
  obtain ⟨hstatus, -, hdata⟩ := formatF_fields st.code data
  refine ⟨hstatus, ?_, hdata⟩
  rw [responseWord, BitVec.extractLsb'_append_eq_of_le (by omega)]
  exact BitVec.extractLsb'_append_eq_right

/-- The operand check of a PUTC (R75, R150). -/
theorem exec_putc_of_not_printable {c : Byte} (hc : s.configured = true) (h : ¬ printable c) :
    exec (.putc c) s = .next (s.reject .rejNotPrintable) := by
  rw [exec, execPutc, ifConfigured_of_true hc, if_neg h]

/-- Settles O23: a code on either side of the range is not printable. -/
theorem unprintableCodesAreRejected : Obligations.UnprintableCodesAreRejected := by
  intro s c hc hrange
  have h : ¬ printable c := by rintro ⟨hlo, hhi⟩; omega
  exact exec_putc_of_not_printable hc h

/-! ### The statuses of a command (R85) -/

/-- The statuses that a command can answer once its words have decoded. -/
def statusesOf : Instr → List Status
  | .init _ => [.ok, .rejAlreadyConfigured, .rejBadDescriptor]
  | .readpx _ _ => [.rejNotConfigured, .ok, .absent]
  | .putc _ => [.rejNotConfigured, .ok, .rejNotPrintable]
  | .fill _ | .drawpx _ _ _ | .godown | .linestart | .newline | .setpanic => [.rejNotConfigured, .ok]

/-- One response has been sent, with a status of the list; its DATA is 0 but for an OK READPX. -/
def AnswersOnce (i : Instr) (sts : List Status) (s t : State) : Prop :=
  ∃ st data, t.responses = responseWord st data :: s.responses ∧
    (data ≠ 0#24 → st = .ok ∧ ∃ h v, i = .readpx h v) ∧ st ∈ sts

theorem answersOnce_of_zero {st : Status} (hr : t.responses = responseWord st 0#24 :: s.responses) (hst : st ∈ sts) :
    AnswersOnce i sts s t :=
  ⟨st, 0#24, hr, fun h => absurd rfl h, hst⟩

theorem answersOnce_of_ifConfigured {body : Result} (h : ifConfigured s body = .next t)
    (hbody : body = .next t → AnswersOnce i sts s t) : AnswersOnce i (.rejNotConfigured :: sts) s t := by
  rcases ifConfigured_eq_next h with ⟨-, rfl⟩ | ⟨-, h⟩
  · exact answersOnce_of_zero rfl List.mem_cons_self
  · obtain ⟨st, data, hr, hdata, hst⟩ := hbody h
    exact ⟨st, data, hr, hdata, List.mem_cons_of_mem _ hst⟩

theorem answersOnce_of_onDevice {op : Device → Except Fault Device} (h : onDevice s op respondOk = .next t) :
    AnswersOnce i [.ok] s t := by
  obtain ⟨d, -, e⟩ := onDevice_eq_next.1 h
  cases e
  exact answersOnce_of_zero rfl List.mem_cons_self

/-- An operation that sends nothing, and then OK. -/
theorem answersOnce_of_respondOk {r : Result} (h : andThen r respondOk = .next t)
    (hr : ∀ u, r = .next u → SameRegisters s u) : AnswersOnce i [.ok] s t := by
  obtain ⟨u, e1, e2⟩ := andThen_eq_next.1 h
  cases e2
  exact answersOnce_of_zero (by rw [State.respond_responses, (hr u e1).responses]) List.mem_cons_self

/-- Every command that completes answers once, with one of its statuses. -/
theorem exec_answersOnce (h : exec i s = .next t) : AnswersOnce i (statusesOf i) s t := by
  cases i with
  | init d =>
    rw [exec, execInit] at h
    split at h
    · cases h; exact answersOnce_of_zero rfl (by simp [statusesOf])
    · split at h
      · obtain ⟨dev, -, e⟩ := onDevice_eq_next.1 h
        cases e
        exact answersOnce_of_zero rfl (by simp [statusesOf])
      · cases h; exact answersOnce_of_zero rfl (by simp [statusesOf])
  | fill p => exact answersOnce_of_ifConfigured h answersOnce_of_onDevice
  | drawpx x y p => exact answersOnce_of_ifConfigured h answersOnce_of_onDevice
  | readpx x y =>
    refine answersOnce_of_ifConfigured h fun h => ?_
    split at h <;> cases h
    · exact ⟨.ok, _, rfl, fun _ => ⟨rfl, x, y, rfl⟩, by decide⟩
    · exact answersOnce_of_zero rfl (by decide)
  | putc c =>
    refine answersOnce_of_ifConfigured h fun h => ?_
    split at h
    · obtain ⟨d, -, e⟩ := onDevice_eq_next.1 h
      obtain ⟨u, e1, e2⟩ := andThen_eq_next.1 e
      cases e2
      have same := advanceCursor_sameRegisters e1
      exact answersOnce_of_zero (by rw [State.respond_responses, same.responses]; rfl) (by decide)
    · cases h; exact answersOnce_of_zero rfl (by decide)
  | godown => exact answersOnce_of_ifConfigured h fun h => answersOnce_of_respondOk h fun _ => goDown_sameRegisters
  | linestart =>
    exact answersOnce_of_ifConfigured h fun h => answersOnce_of_respondOk h fun _ => goToLineStart_sameRegisters
  | newline =>
    refine answersOnce_of_ifConfigured h fun h => answersOnce_of_respondOk h fun u e => ?_
    obtain ⟨m, e1, e2⟩ := andThen_eq_next.1 e
    exact (goDown_sameRegisters e1).trans (goToLineStart_sameRegisters e2)
  | setpanic =>
    refine answersOnce_of_ifConfigured h fun h => ?_
    cases h
    exact answersOnce_of_zero rfl (by decide)

/-- What makes a framed command malformed (R233 steps 1 and 2). -/
theorem decodePair_eq_malformed {cause : Malformed} (h : decodePair w0 w1 = .malformed cause) :
    (cause = .opcode ∧ formatOf (opcodeField w0) = none) ∨
      (cause = .reserved ∧ ∃ fmt, formatOf (opcodeField w0) = some fmt ∧ w0 &&& reservedMask fmt ≠ 0#64) := by
  cases hf : formatOf (opcodeField w0) with
  | none =>
    rw [decodePair_of_no_format hf] at h; cases h
    exact .inl ⟨rfl, rfl⟩
  | some fmt =>
    have hm : w0 &&& reservedMask fmt ≠ 0#64 := fun hm => by
      obtain ⟨i, hi⟩ := Option.isSome_iff_exists.1 ((commandOf_isSome w0 w1).trans (by rw [hf]; rfl))
      rw [decodePair_of_opcode hf hi hm] at h; cases h
    rw [decodePair_of_reserved hf hm] at h; cases h
    exact .inr ⟨rfl, fmt, rfl, hm⟩

/-- The one opcode whose response has DATA is READPX's. -/
theorem opcodeField_of_readpxRow {fmt : Format} {x y : HalfWord} (row : OpcodeRow w0 w1 fmt (.readpx x y)) :
    opcodeField w0 = 0x04#8 := by
  cases row with | readpx ho => exact ho

/-- Settles O37: a decoded command answers with one of its statuses, and malformed words with the cause of R233. -/
theorem eachCommandAnswersOnceWithItsStatuses : Obligations.EachCommandAnswersOnceWithItsStatuses := by
  intro s t w0 w1 h
  rcases runFramed_eq_next h with ⟨i, hd, h⟩ | ⟨cause, hd, rfl⟩
  · obtain ⟨fmt, row, -⟩ := row_of_decodePair hd
    obtain ⟨st, data, hr, hdata, hst⟩ := exec_answersOnce h
    refine ⟨st, data, hr, fun hz => ?_, ?_⟩
    · obtain ⟨hok, x, y, rfl⟩ := hdata hz
      exact ⟨hok, opcodeField_of_readpxRow row⟩
    have common : [Status.rejNotConfigured, .ok] ⊆ [.ok, .rejReserved, .rejNotConfigured] := by decide
    rw [← opcodeField]
    cases row with
    | init ho =>
      rw [ho]
      exact (by decide : [Status.ok, .rejAlreadyConfigured, .rejBadDescriptor] ⊆
        [.ok, .rejReserved, .rejAlreadyConfigured, .rejBadDescriptor]) hst
    | fill ho => rw [ho]; exact common hst
    | drawpx ho => rw [ho]; exact (by decide : [Status.rejNotConfigured, .ok] ⊆ [.ok, .rejNotConfigured]) hst
    | readpx ho =>
      rw [ho]
      exact (by decide : [Status.rejNotConfigured, .ok, .absent] ⊆ [.ok, .absent, .rejReserved, .rejNotConfigured]) hst
    | putc ho =>
      rw [ho]
      exact (by decide : [Status.rejNotConfigured, .ok, .rejNotPrintable] ⊆
        [.ok, .rejReserved, .rejNotConfigured, .rejNotPrintable]) hst
    | godown ho => rw [ho]; exact common hst
    | linestart ho => rw [ho]; exact common hst
    | newline ho => rw [ho]; exact common hst
    | setpanic ho => rw [ho]; exact common hst
  · refine ⟨malformedStatus cause, 0#24, rfl, fun hz => absurd rfl hz, ?_⟩
    rw [← opcodeField]
    rcases decodePair_eq_malformed hd with ⟨rfl, hf⟩ | ⟨rfl, fmt, hf, hm⟩
    · -- the opcode is none of the nine that the table lists
      have ho := (formatOf_eq_none_iff _).1 hf
      split <;> simp_all [malformedStatus]
    · -- format P is no case: it has no reserved bits
      have noP : fmt ≠ .p := by rintro rfl; exact hm (formatP_reserved w0)
      have row := opcode_of_mem_formatOf _ fmt hf
      simp only [noP, and_false, false_or] at row
      rcases row with ⟨ho, -⟩ | ⟨ho, -⟩ | ⟨ho, -⟩ | ⟨ho, -⟩ | ⟨ho | ho | ho | ho, -⟩ <;> simp [ho, malformedStatus]

end Sys2Proof.Machine
end

/-! Calls of the host (45_host_console.md, 30_encoding.md R87) and lines of assembly (30_encoding.md R86). -/

section

namespace Sys2Proof.Machine

variable {s : State} {rest : List Event}

/-- A step on a call of the host changes only the inputs to come. -/
theorem step_of_call {c : HostCall} (hi : s.input = .call c :: rest) :
    step s = .next { s with input := hostStep c rest } := by
  rw [step, nextStep, hi]
  rfl

/-- Words and calls before the first reset are dropped (R223, log entry 7). -/
theorem idleUntilReset_append {dropped : List Event} (hd : ∀ e ∈ dropped, (∃ w, e = .word w) ∨ ∃ c, e = .call c)
    (later : List Event) : idleUntilReset (dropped ++ later) = idleUntilReset later := by
  induction dropped with
  | nil => rfl
  | cons e dropped ih =>
    obtain ⟨he, hrest⟩ := List.forall_mem_cons.1 hd
    rcases he with ⟨w, rfl⟩ | ⟨c, rfl⟩
    · exact ih hrest
    · exact ih hrest

/-- Settles O53: a call's step is its words before what follows, and a fault report drops words and calls alone. -/
theorem hostCallsBecomeCommandWords : Obligations.HostCallsBecomeCommandWords := by
  refine ⟨fun s rest => ⟨fun d => step_of_call, step_of_call, fun c text => step_of_call, step_of_call, step_of_call,
    fun text => step_of_call⟩, fun dropped hd => ⟨?_, fun later => ⟨?_, fun w n => ?_⟩⟩⟩
  · rw [← List.append_nil dropped, idleUntilReset_append hd, idleUntilReset]
  · rw [idleUntilReset_append hd, idleUntilReset]
  · rw [idleUntilReset_append hd, idleUntilReset]

/-- Settles O54: the assembler evaluates each line to its words. -/
theorem assemblyLinesAreTheirWords : Obligations.AssemblyLinesAreTheirWords := by
  refine ⟨?_, ?_, ?_, ?_⟩ <;> decide

end Sys2Proof.Machine
end

/-! The converter between pixels and pixel words (40_pixel_format.md R101 to R108). -/

section

namespace Sys2Proof.Machine

/-- Settles O8: Encode and Decode are a concatenation of bytes and its fields, lowest byte first. -/
theorem pixelBytesStandInTheOrderOfTheFormat : Obligations.PixelBytesStandInTheOrderOfTheFormat := by
  refine ⟨fun p => ?_, fun hp0 hp1 hp2 hp3 => ?_⟩
  · obtain ⟨rgb0, rgb1, rgb2, rgb3⟩ := extractLsb'_append4 0#8 p.b p.g p.r
    obtain ⟨bgr0, bgr1, bgr2, bgr3⟩ := extractLsb'_append4 0#8 p.r p.g p.b
    exact ⟨rgb0, rgb1, rgb2, rgb3, bgr0, bgr1, bgr2, bgr3⟩
  · obtain ⟨h0, h1, h2, -⟩ := extractLsb'_append4 hp3 hp2 hp1 hp0
    exact ⟨by rw [decodePixel, h0, h1, h2], by rw [decodePixel, h0, h1, h2]⟩

/-- Encode of Decode keeps the three colour bytes of a word, in either format, and clears its reserved byte (R106). -/
theorem encodePixel_decodePixel (f : Fmt) (w : PixelWord) :
    encodePixel f (decodePixel f w) = 0#8 ++ byteOf w 2 ++ byteOf w 1 ++ byteOf w 0 := by
  cases f <;> rfl

/-- The words that Encode undoes Decode on (R107). -/
theorem encodePixel_decodePixel_eq_self_iff (f : Fmt) (w : PixelWord) :
    encodePixel f (decodePixel f w) = w ↔ byteOf w 3 = 0#8 := by
  refine ⟨fun h => ?_, fun h => ?_⟩
  · rw [← h]; exact byteOf_encodePixel_three f (decodePixel f w)
  · rw [encodePixel_decodePixel, ← h, byteOf_append]

/-- Settles O9: the reserved byte is the only one that Decode and Encode do not carry over. -/
theorem pixelConversionRoundTrips : Obligations.PixelConversionRoundTrips := fun f p w =>
  ⟨decodePixel_encodePixel f p, encodePixel_decodePixel_eq_self_iff f w, byteOf_encodePixel_three f p⟩

/-- The two formats read the same word with red and blue exchanged. -/
theorem decodePixel_of_ne {f f' : Fmt} (h : f' ≠ f) (w : PixelWord) : decodePixel f' w =
    { r := (decodePixel f w).b, g := (decodePixel f w).g, b := (decodePixel f w).r } :=
  match f, f', h with
  | .rgb, .bgr, _ => rfl
  | .bgr, .rgb, _ => rfl

/-- Settles O10: the word's own format gives the pixel back, and the other format exchanges two of its channels. -/
theorem otherFormatSwapsRedAndBlue : Obligations.OtherFormatSwapsRedAndBlue := by
  have swap {f f' : Fmt} (h : f' ≠ f) (p : Pixel) :
      decodePixel f' (encodePixel f p) = { r := p.b, g := p.g, b := p.r } := by
    rw [decodePixel_of_ne h, decodePixel_encodePixel]
  exact fun p => ⟨swap (by decide) p, swap (by decide) p⟩

end Sys2Proof.Machine
end

/-! The framebuffer commands (41_framebuffer.md R120 to R128): the fill of INIT and FILL, and the single pixel of DRAWPX
and READPX. -/

section

namespace Sys2Proof.Machine

variable {s : State} {g : Descriptor} {h v : HalfWord}

/-! ### The fill (R123) -/

/-- The history grows by the accesses, said oldest first. -/
theorem replay_trace_reverse (accs : List Access) (d : Device) :
    (accs.foldl replayAccess d).trace.reverse = d.trace.reverse ++ accs := by
  rw [replay_trace, List.reverse_append, List.reverse_reverse]

/-- The accesses of a fill, oldest first: one write a visible pixel, scanline by scanline (R123). -/
def fillWrites (g : Descriptor) (p : Pixel) : List Access :=
  (List.range g.vres.toNat).flatMap fun v => (List.range g.hres.toNat).map fun h =>
    .write (pixAddr g h v) (encodePixel g.fmt p)

/-- Every position of the fill's loops is visible, so it makes one write each. -/
theorem paintAccesses_fill (g : Descriptor) (p : Pixel) :
    (paintAccesses g 0 0 g.hres.toNat g.vres.toNat fun _ _ => p) = fillWrites g p := by
  rw [fillWrites, paintAccesses_of_visible fun y x hy hx => by rw [Nat.zero_add, Nat.zero_add]; exact ⟨hx, hy⟩]
  simp only [Nat.zero_add]

/-- A fill completes, and leaves the painted screen and one write a visible pixel in scanline order. -/
theorem fillScreen_paints (hg : descriptorOk g) (p : Pixel) (d : Device) :
    ∃ d', fillScreen g p d = .ok d' ∧
      Painted g 0 0 g.hres.toNat g.vres.toNat (fun _ _ => p) d.mem d'.mem ∧
      d'.trace.reverse = d.trace.reverse ++ fillWrites g p :=
  ⟨_, fillScreen_eq hg p d, painted_paint hg _ _ _ _ _ d, by rw [replay_trace_reverse, paintAccesses_fill]⟩

/-- Settles O14: a FILL is the fill of the latched descriptor's screen, and a response. -/
theorem fillPaintsTheVisibleScreen : Obligations.FillPaintsTheVisibleScreen := by
  intro s p hc hg
  obtain ⟨dev, e, painted, writes⟩ := fillScreen_paints hg p s.dev
  refine ⟨dev, ?_, painted, writes⟩
  rw [exec, execFill, ifConfigured_of_true hc, onDevice_eq e]
  rfl

/-- Settles O12: an accepted INIT constructs the block and fills the screen of the descriptor it is given. -/
theorem initConfiguresAndBlanks : Obligations.InitConfiguresAndBlanks := by
  intro s d hc hlo hhi vlo vhi hstride halign hend
  have hd : descriptorOk d := ⟨⟨hlo, hhi⟩, ⟨vlo, vhi⟩, hstride, halign, hend⟩
  obtain ⟨dev, e, painted, writes⟩ := fillScreen_paints hd s.params.normal.bg s.dev
  refine ⟨dev, ?_, painted, writes⟩
  rw [exec_init_of_ok hd hc, onDevice_eq (by exact e)]
  rfl

/-- Settles O13: each failing check contradicts the conjunct of `descriptorOk` that makes it. -/
theorem initIsRejected : Obligations.InitIsRejected := by
  refine ⟨fun s d hc => if_pos hc, fun s d hc hfail => exec_init_of_not_ok ?_ hc⟩
  rintro ⟨⟨hlo, hhi⟩, ⟨vlo, vhi⟩, hstride, halign, hend⟩
  omega

/-! ### One pixel (R120, R121, R126, R127) -/

theorem exec_drawpx_of_visible (hc : s.configured = true) (hg : descriptorOk s.desc)
    (hv : visible s.desc h.toNat v.toNat) (p : Pixel) :
    exec (.drawpx h v p) s = .next ((s.setDevice (replayAccess s.dev
      (.write (pixAddr s.desc h.toNat v.toNat) (encodePixel s.desc.fmt p)))).respond .ok 0#24) := by
  rw [exec, execDrawpx, ifConfigured_of_true hc, onDevice_eq (drawPixelIfVisible_eq hg _ _ p _), drawAccesses, if_pos hv]
  rfl

theorem exec_drawpx_of_not_visible (hc : s.configured = true) (hv : ¬ visible s.desc h.toNat v.toNat) (p : Pixel) :
    exec (.drawpx h v p) s = .next (s.respond .ok 0#24) := by
  rw [exec, execDrawpx, ifConfigured_of_true hc, onDevice_eq (if_neg hv)]
  rfl

theorem exec_readpx_of_visible (hc : s.configured = true) (hg : descriptorOk s.desc)
    (hv : visible s.desc h.toNat v.toNat) :
    exec (.readpx h v) s = .next ((s.setDevice (replayAccess s.dev
      (.read (pixAddr s.desc h.toNat v.toNat) (Memory.read32 s.dev.mem (pixAddr s.desc h.toNat v.toNat))))).respond .ok
        (rgb24 (decodePixel s.desc.fmt (Memory.read32 s.dev.mem (pixAddr s.desc h.toNat v.toNat))))) := by
  rw [exec, execReadpx, ifConfigured_of_true hc, getPixelIfVisible_eq hg hv]

theorem exec_readpx_of_not_visible (hc : s.configured = true) (hv : ¬ visible s.desc h.toNat v.toNat) :
    exec (.readpx h v) s = .next (s.respond .absent 0#24) := by
  rw [exec, execReadpx, ifConfigured_of_true hc, getPixelIfVisible_absent hv]
  rfl

/-- A word write holds the word at its address. -/
theorem holdsWord_write32 (m : Memory) (a : Nat) (w : PixelWord) : holdsWord (Memory.write32 m a w) a w := by
  intro k hk
  rw [Memory.read?_write32, if_pos (by omega), Nat.add_sub_cancel_left]
  rfl

/-- Settles O15: the one write of a visible pixel stores its four bytes. -/
theorem drawpxWritesOneVisiblePixel : Obligations.DrawpxWritesOneVisiblePixel := by
  intro s h v p hc hg
  refine ⟨fun hv => ⟨_, exec_drawpx_of_visible hc hg hv p, holdsWord_write32 _ _ _, fun a ha => ?_⟩,
    fun hv => exec_drawpx_of_not_visible hc hv p⟩
  rw [Memory.read?_write32]
  exact if_neg ha

/-- Settles O16, case by case of whether the position is visible. -/
theorem readpxAnswersThePixel : Obligations.ReadpxAnswersThePixel := fun _ _ _ hc hg =>
  ⟨exec_readpx_of_visible hc hg, exec_readpx_of_not_visible hc⟩

/-- Settles O17: the word written is the word read, and Decode undoes Encode. -/
theorem drawThenReadGivesThePixel : Obligations.DrawThenReadGivesThePixel := by
  intro s h v p hc hg
  by_cases hv : visible s.desc h.toNat v.toNat
  · refine ⟨_, _, exec_drawpx_of_visible hc hg hv p,
      exec_readpx_of_visible (by exact hc) (by exact hg) (by exact hv), fun _ => ?_, fun hn => absurd hv hn⟩
    simp [Memory.read32_write32_same, decodePixel_encodePixel]
  · exact ⟨_, _, exec_drawpx_of_not_visible hc hv p, exec_readpx_of_not_visible (by exact hc) (by exact hv),
      fun hn => absurd hn hv, fun _ => ⟨rfl, rfl⟩⟩

end Sys2Proof.Machine
end

/-! The commands that scroll (43_charbuffer.md R162, R167 to R172): what each of them leaves, and the words that its
accesses carry. -/

section

namespace Sys2Proof.Machine

variable {s : State} {k r : Nat} {p : Params} {g : Descriptor}

/-! ### Each command that scrolls (R168, R170, R172) -/

/-- The device after a scroll from `d`. -/
def scrollDevice (p : Params) (g : Descriptor) (bg : Pixel) (d : Device) : Device :=
  (scrollAccesses p g bg d.mem).foldl replayAccess d

/-- The device after the glyph of a PUTC at cell (k, r). -/
def glyphDevice (s : State) (c : Byte) (k r : Nat) : Device :=
  (glyphWrites s.params s.desc (activeColors s) c (k * cw s.params) (r * ch s.params)).foldl replayAccess s.dev

theorem glyphDrawn_glyphDevice (h : AtCell s k r) (c : Byte) :
    GlyphDrawn s.params s.desc (activeColors s) c (k * cw s.params) (r * ch s.params) s.dev.mem
      (glyphDevice s c k r).mem := by
  rw [glyphDevice, ← paintAccesses_glyph h.column h.row]
  exact painted_paint h.descriptor _ _ _ _ _ _

/-- A GODOWN on the last row is a scroll. -/
theorem exec_godown_of_lastRow (h : AtCell s k r) (hr : r + 1 = gridH s.params s.desc) :
    exec .godown s =
      .next (doneAt s 0 (r * ch s.params) (scrollDevice s.params s.desc (activeColors s).bg s.dev)) := by
  rw [exec, execGodown, ifConfigured_of_true h.configured, goDown_of_last h.curV hr]
  exact scroll_respondOk h.descriptor hr _

/-- A NEWLINE on the last row is the same scroll: the return to column 0 that follows it finds the cursor there. -/
theorem exec_newline_of_lastRow (h : AtCell s k r) (hr : r + 1 = gridH s.params s.desc) :
    exec .newline s =
      .next (doneAt s 0 (r * ch s.params) (scrollDevice s.params s.desc (activeColors s).bg s.dev)) := by
  have hlast : gridH s.params s.desc - 1 = r := by omega
  rw [exec, execNewline, ifConfigured_of_true h.configured, goDown_of_last h.curV hr, scroll_eq (by exact h.descriptor),
    andThen_next, goToLineStart_of_fits (r := r) ?_ (by exact h.row)]
  · simp only [State.setCurV_params, State.setCurV_desc, hlast]
    rfl
  · simp only [State.setCurV_params, State.setCurV_desc, hlast]
    exact State.setCurV_toNat _ _ (row_lt_2_16 _ (Nat.le_of_lt h.row))

/-- A PUTC in the last cell is the glyph, and then a scroll from the memory that has it. -/
theorem exec_putc_of_lastCell {c : Byte} (h : AtCell s k r) (hc : printable c) (hk : k + 1 = gridW s.params s.desc)
    (hr : r + 1 = gridH s.params s.desc) :
    exec (.putc c) s = .next (doneAt s 0 (r * ch s.params)
      (scrollDevice s.params s.desc (activeColors s).bg (glyphDevice s c k r))) := by
  rw [exec, execPutc_eq h hc, paintAccesses_glyph h.column h.row,
    (h.setDevice _).advance_scroll (by exact hk) (by exact hr)]
  exact scroll_respondOk (s := State.setCurH _ 0) (by exact h.descriptor) (by exact hr) _

/-! ### The words of the accesses (R106, R122, R165) -/

theorem map_value_glyphWrites (cs : CharColors) (c : Byte) (h0 v0 : Nat) :
    (glyphWrites p g cs c h0 v0).map (fun acc => acc.value) =
      (List.range (ch p)).flatMap fun y => (List.range (cw p)).map fun x =>
        encodePixel g.fmt (bitColor cs (glyphBit p c y x)) := by
  simp only [glyphWrites, List.map_flatMap, List.map_map]
  rfl

/-- A copy's read and its write carry the same word, the one that stood one cell below. -/
theorem map_value_shiftAccesses (m : Memory) :
    (shiftAccesses p g m).map (fun acc => acc.value) =
      (List.range (gridH p g - 1)).flatMap fun row => (List.range (gridW p g)).flatMap fun col =>
        (List.range (ch p)).flatMap fun y => (List.range (cw p)).flatMap fun x =>
          List.replicate 2 (Memory.read32 m (pixAddr g (col * cw p + x) ((row + 1) * ch p + y))) := by
  simp only [shiftAccesses, List.map_flatMap]
  rfl

/-- The clear writes one word, as often as the last row has pixels. -/
theorem map_value_clearAccesses (hg : descriptorOk g) (bg : Pixel) :
    (clearAccesses p g bg).map (fun acc => acc.value) =
      List.replicate (gridW p g * cw p * ch p) (encodePixel g.fmt bg) := by
  refine List.eq_replicate_iff.2 ⟨?_, fun w hw => ?_⟩
  · rw [List.length_map, length_clearAccesses hg, Nat.mul_comm (ch p), Nat.mul_assoc]
  · obtain ⟨acc, hacc, rfl⟩ := List.mem_map.1 hw
    obtain ⟨h, v, -, -, -, rfl⟩ := (mem_clearAccesses hg).1 hacc
    rfl

/-- The accesses of a scroll from a device are those from any memory with the same written bytes. -/
theorem scrollDevice_trace_reverse (hg : descriptorOk g) {bg : Pixel} {d : Device} {m : Memory}
    (hm : ∀ a, Memory.read? d.mem a = Memory.read? m a) :
    (scrollDevice p g bg d).trace.reverse = d.trace.reverse ++ (shiftAccesses p g m ++ clearAccesses p g bg) := by
  rw [scrollDevice, replay_trace_reverse, scrollAccesses_eq hg, scrollTrace_congr hm, ← scrollAccesses_eq hg,
    scrollAccesses]

/-- Settles O28: the words are those of the copies and of the clear, and a PUTC's glyph fixes the memory that its scroll
starts from. -/
theorem scrollCopiesRawWords : Obligations.ScrollCopiesRawWords := by
  intro s t i k r glyph m h hr hcase e
  rcases hcase with ⟨hi, rfl, rfl⟩ | ⟨c, rfl, hlo, hhi, hk, rfl, hm⟩
  · have he : exec i s =
        .next (doneAt s 0 (r * ch s.params) (scrollDevice s.params s.desc (activeColors s).bg s.dev)) := by
      rcases hi with rfl | rfl
      exacts [exec_godown_of_lastRow h hr, exec_newline_of_lastRow h hr]
    cases he.symm.trans e
    rw [doneAt, scrollDevice_trace_reverse h.descriptor fun _ => rfl]
    simp only [List.map_append, map_value_shiftAccesses, map_value_clearAccesses h.descriptor, List.append_assoc,
      List.nil_append]
  · cases (exec_putc_of_lastCell h ⟨hlo, hhi⟩ hk hr).symm.trans e
    rw [doneAt, scrollDevice_trace_reverse h.descriptor ((glyphDrawn_glyphDevice h c).unique hm), glyphDevice,
      replay_trace_reverse]
    simp only [List.map_append, map_value_glyphWrites, map_value_shiftAccesses, map_value_clearAccesses h.descriptor,
      List.append_assoc]

end Sys2Proof.Machine
end

/-! PUTC before the last column (42_glyph_rom.md R154, 43_charbuffer.md R168): the glyph of its cell, and the cursor one
column to the right. -/

section

namespace Sys2Proof.Machine

variable {s : State} {k r : Nat}

/-- The glyph of a PUTC adds its writes to the history and nothing else (R58, R154). -/
theorem glyphDevice_trace_reverse (s : State) (c : Byte) (k r : Nat) :
    (glyphDevice s c k r).trace.reverse = s.dev.trace.reverse ++
      glyphWrites s.params s.desc (activeColors s) c (k * cw s.params) (r * ch s.params) :=
  replay_trace_reverse _ _

/-- A PUTC before the last column is the glyph, and then a cursor one column further that still fits its row. -/
theorem exec_putc_of_column_lt {c : Byte} (h : AtCell s k r) (hc : printable c)
    (hk : k + 1 < gridW s.params s.desc) :
    exec (.putc c) s = .next (doneAt s ((k + 1) * cw s.params) (r * ch s.params) (glyphDevice s c k r)) := by
  rw [exec, execPutc_eq h hc, paintAccesses_glyph h.column h.row, (h.setDevice _).advance (by exact hk), h.doneAt_row]
  rfl

/-- Settles O20: the glyph fixes memory and history, and the advance to the next column needs no wrap. -/
theorem putcDrawsAndAdvances : Obligations.PutcDrawsAndAdvances := fun s c k r h hlo hhi hk =>
  ⟨glyphDevice s c k r, exec_putc_of_column_lt h ⟨hlo, hhi⟩ hk, h.doneAt hk h.row, glyphDrawn_glyphDevice h c,
    glyphDevice_trace_reverse s c k r⟩

end Sys2Proof.Machine
end

/-! The cursor commands (43_charbuffer.md R162 to R172, R176): PUTC in the last column, GODOWN, LINESTART and NEWLINE, with
and without a scroll, and the accesses of a scroll in order. -/

section

namespace Sys2Proof.Machine

variable {s : State} {k r : Nat} {p : Params} {g : Descriptor}

/-! ### Each command on its row (R169 to R172) -/

/-- A PUTC in the last column of a row above the last is the glyph, and then the line wrap. -/
theorem exec_putc_of_lastColumn {c : Byte} (h : AtCell s k r) (hc : printable c)
    (hk : k + 1 = gridW s.params s.desc) (hr : r + 1 < gridH s.params s.desc) :
    exec (.putc c) s = .next (doneAt s 0 ((r + 1) * ch s.params) (glyphDevice s c k r)) := by
  rw [exec, execPutc_eq h hc, paintAccesses_glyph h.column h.row,
    (h.setDevice _).advance_wrap (by exact hk) (by exact hr)]
  rfl

/-- A GODOWN above the last row moves the cursor alone. -/
theorem exec_godown_of_row_lt (h : AtCell s k r) (hr : r + 1 < gridH s.params s.desc) :
    exec .godown s = .next (doneAt s (k * cw s.params) ((r + 1) * ch s.params) s.dev) := by
  rw [exec, execGodown, ifConfigured_of_true h.configured, goDown_of_lt h.curV hr, h.doneAt_column]
  rfl

/-- A LINESTART never meets its scroll check: the cursor's row is a row of the grid. -/
theorem exec_linestart (h : AtCell s k r) :
    exec .linestart s = .next (doneAt s 0 (r * ch s.params) s.dev) := by
  rw [exec, execLinestart, ifConfigured_of_true h.configured, goToLineStart_of_fits h.curV h.row, h.doneAt_row]
  rfl

/-- A NEWLINE above the last row is a GODOWN and then a LINESTART, neither with a scroll. -/
theorem exec_newline_of_row_lt (h : AtCell s k r) (hr : r + 1 < gridH s.params s.desc) :
    exec .newline s = .next (doneAt s 0 ((r + 1) * ch s.params) s.dev) := by
  rw [exec, execNewline, ifConfigured_of_true h.configured, goDown_of_lt h.curV hr, andThen_next,
    goToLineStart_of_fits (h.setCurV hr).curV (h.setCurV hr).row]
  rfl

/-- On the last row a GODOWN and a NEWLINE are one scroll alike (R170, R172). -/
theorem exec_rowDown_of_lastRow {i : Instr} (hi : i = .godown ∨ i = .newline) (h : AtCell s k r)
    (hr : r + 1 = gridH s.params s.desc) :
    exec i s =
      .next (doneAt s 0 (r * ch s.params) (scrollDevice s.params s.desc (activeColors s).bg s.dev)) := by
  rcases hi with rfl | rfl
  exacts [exec_godown_of_lastRow h hr, exec_newline_of_lastRow h hr]

/-! ### The scroll's history (R163 to R165) -/

theorem scrollDevice_trace_eq_scrollTrace (hg : descriptorOk g) (bg : Pixel) (d : Device) :
    (scrollDevice p g bg d).trace.reverse = d.trace.reverse ++ scrollTrace p g bg d.mem := by
  rw [scrollDevice, replay_trace_reverse, scrollAccesses_eq hg]

theorem map_addr_glyphWrites (cs : CharColors) (c : Byte) (h0 v0 : Nat) :
    (glyphWrites p g cs c h0 v0).map (fun acc => (acc.isWrite, acc.addr)) =
      (List.range (ch p)).flatMap fun y => (List.range (cw p)).map fun x => (true, pixAddr g (h0 + x) (v0 + y)) := by
  simp only [glyphWrites, List.map_flatMap, List.map_map]
  rfl

/-- Which accesses a scroll makes depends on the grid alone, not on the words that memory holds. -/
theorem map_addr_scrollTrace (bg : Pixel) (m : Memory) :
    (scrollTrace p g bg m).map (fun acc => (acc.isWrite, acc.addr)) =
      ((List.range (gridH p g - 1)).flatMap fun row => (List.range (gridW p g)).flatMap fun col =>
        (List.range (ch p)).flatMap fun y => (List.range (cw p)).flatMap fun x =>
          [(false, pixAddr g (col * cw p + x) ((row + 1) * ch p + y)),
           (true, pixAddr g (col * cw p + x) (row * ch p + y))]) ++
      (List.range (gridW p g)).flatMap fun col =>
        (List.range (ch p)).flatMap fun y => (List.range (cw p)).map fun x =>
          (true, pixAddr g (col * cw p + x) ((gridH p g - 1) * ch p + y)) := by
  simp only [scrollTrace, List.map_append, List.map_flatMap, List.map_map]
  rfl

/-! ### The statements -/

/-- Settles O25: the cursor's row needs no scroll. -/
theorem linestartReturnsToColumnZero : Obligations.LinestartReturnsToColumnZero := fun _ _ _ h =>
  ⟨exec_linestart h, h.doneAt_zero h.row⟩

/-- Settles O21: the glyph fixes memory and history, and the wrap finds a row of the grid. -/
theorem putcWrapsToTheNextRow : Obligations.PutcWrapsToTheNextRow := fun s c k r h hlo hhi hk hr =>
  ⟨glyphDevice s c k r, exec_putc_of_lastColumn h ⟨hlo, hhi⟩ hk hr, h.doneAt_zero hr, glyphDrawn_glyphDevice h c,
    glyphDevice_trace_reverse s c k r⟩

/-- Settles O22: the scroll starts from the memory that has the glyph. -/
theorem putcInTheLastCellScrolls : Obligations.PutcInTheLastCellScrolls := by
  intro s c k r h hlo hhi hk hr
  refine ⟨_, (glyphDevice s c k r).mem, exec_putc_of_lastCell h ⟨hlo, hhi⟩ hk hr, h.doneAt_zero h.row,
    glyphDrawn_glyphDevice h c, scrolled_scroll h.descriptor _ _, ?_⟩
  rw [scrollDevice_trace_eq_scrollTrace h.descriptor, glyphDevice_trace_reverse]

/-- Settles O24, by whether the row is the last. -/
theorem godownMovesOrScrolls : Obligations.GodownMovesOrScrolls := fun _ _ _ h =>
  ⟨fun hr => ⟨exec_godown_of_row_lt h hr, h.doneAt h.column hr⟩,
   fun hr => ⟨_, exec_godown_of_lastRow h hr, h.doneAt_zero h.row, scrolled_scroll h.descriptor _ _⟩⟩

/-- Settles O26, by whether the row is the last. -/
theorem newlineMovesOrScrolls : Obligations.NewlineMovesOrScrolls := fun _ _ _ h =>
  ⟨fun hr => ⟨exec_newline_of_row_lt h hr, h.doneAt_zero hr⟩,
   fun hr => ⟨_, exec_newline_of_lastRow h hr, h.doneAt_zero h.row, scrolled_scroll h.descriptor _ _⟩⟩

/-- Settles O27: each command's history is the glyph's writes, if it draws one, and then the scroll's accesses. -/
theorem scrollAccessesAreInTheOrderOfTheRules : Obligations.ScrollAccessesAreInTheOrderOfTheRules := by
  intro s t i k r glyph h hr hcase e
  rcases hcase with ⟨hi, rfl⟩ | ⟨c, rfl, hlo, hhi, hk, rfl⟩
  · cases (exec_rowDown_of_lastRow hi h hr).symm.trans e
    rw [doneAt, scrollDevice_trace_eq_scrollTrace h.descriptor, List.map_append, map_addr_scrollTrace,
      List.append_nil, List.append_assoc]
  · cases (exec_putc_of_lastCell h ⟨hlo, hhi⟩ hk hr).symm.trans e
    rw [doneAt, scrollDevice_trace_eq_scrollTrace h.descriptor, glyphDevice_trace_reverse, List.map_append,
      List.map_append, map_addr_glyphWrites, map_addr_scrollTrace, ← List.append_assoc]

end Sys2Proof.Machine
end

/-! A full line of characters (43_charbuffer.md R174): what stands on a row as a line of PUTCs fills it from column 0. -/

section

namespace Sys2Proof.Machine

variable {s : State} {r : Nat} {p : Params} {g : Descriptor} {colors : CharColors} {cs : List Byte} {m m' : Memory}

/-- The characters of `cs` stand on row `r` from column 0 on, in the colours `colors` (R151, R153). -/
def LineHolds (p : Params) (g : Descriptor) (colors : CharColors) (cs : List Byte) (r : Nat) (m : Memory) : Prop :=
  ∀ k x y, k < cs.length → x < cw p → y < ch p →
    holdsWord m (pixAddr g (k * cw p + x) (r * ch p + y))
      (encodePixel g.fmt (bitColor colors (glyphBit p (cs.getD k 0#8) y x)))

theorem lineHolds_nil (p : Params) (g : Descriptor) (colors : CharColors) (r : Nat) (m : Memory) :
    LineHolds p g colors [] r m := fun _ _ _ hk => absurd hk (Nat.not_lt_zero _)

/-- A glyph in the next column adds its character to the line: its cell is apart from the cells before it. -/
theorem LineHolds.glyph (h : LineHolds p g colors cs r m) (hg : descriptorOk g) (hcs : cs.length < gridW p g)
    (hr : r < gridH p g) {c : Byte} (hm : GlyphDrawn p g colors c (cs.length * cw p) (r * ch p) m m') :
    LineHolds p g colors (cs ++ [c]) r m' := by
  intro k x y hk hx hy
  have visibleAt {j : Nat} (hj : j < gridW p g) : visible g (j * cw p + x) (r * ch p + y) :=
    visible_of_inGrid (inGrid_cell hj hr hx hy)
  rw [List.length_append, List.length_singleton] at hk
  rcases Nat.lt_succ_iff_lt_or_eq.1 hk with hk | rfl
  · intro i hi
    rw [List.getD_append _ _ _ _ hk, hm.outside, h k x y hk hx hy i hi]
    rintro y' x' - - hv' ⟨hlo, hhi⟩
    have hcol := (pixAddr_overlap hg (visibleAt (Nat.lt_trans hk hcs)) hv' (Nat.le_add_right _ _) (by omega) hlo hhi).1
    have := cell_lt hk hx
    omega
  · rw [List.getD_append_right _ _ _ _ (Nat.le_refl _), Nat.sub_self]
    exact hm.inside y x hy hx (visibleAt hcs)

/-- A scroll moves a line one row up (R176). -/
theorem LineHolds.scroll {bg : Pixel} (h : LineHolds p g colors cs (r + 1) m) (hcs : cs.length ≤ gridW p g)
    (hr : r + 1 < gridH p g) (hm : Scrolled p g bg m m') : LineHolds p g colors cs r m' := by
  intro k x y hk hx hy
  have hword := hm.shifted k r x y (Nat.lt_of_lt_of_le hk hcs) hr hx hy
  rwa [Memory.read32_of_bytes (h k x y hk hx hy)] at hword

/-- PUTCs of the rest of a line, from the column after the characters `cs` that stand on row `r`, fill the row and
wrap. -/
theorem putAll_fills_row {rest : List Byte} (h : AtCell s cs.length r) (hrest : ∀ c ∈ rest, printable c)
    (hlen : cs.length + rest.length = gridW s.params s.desc)
    (hline : LineHolds s.params s.desc (activeColors s) cs r s.dev.mem) :
    ∃ t, putAll rest s = .next t ∧
      (r + 1 < gridH s.params s.desc → AtCell t 0 (r + 1) ∧
        LineHolds s.params s.desc (activeColors s) (cs ++ rest) r t.dev.mem) ∧
      (r + 1 = gridH s.params s.desc → AtCell t 0 r ∧
        (1 ≤ r → LineHolds s.params s.desc (activeColors s) (cs ++ rest) (r - 1) t.dev.mem)) := by
  induction rest generalizing s cs with
  | nil => exact absurd h.column (Nat.not_lt.2 (Nat.le_of_eq hlen.symm))
  | cons c rest ih =>
    obtain ⟨hc, hrest⟩ := List.forall_mem_cons.1 hrest
    have hdrawn := hline.glyph h.descriptor h.column h.row (glyphDrawn_glyphDevice h c)
    cases rest with
    | nil =>
      have hk : cs.length + 1 = gridW s.params s.desc := hlen
      rcases Nat.lt_or_eq_of_le (Nat.succ_le_of_lt h.row) with hr | hr
      · refine ⟨_, by rw [putAll, exec_putc_of_lastColumn h hc hk hr]; rfl,
          fun _ => ⟨h.doneAt_zero hr, hdrawn⟩, fun hlast => absurd hlast (Nat.ne_of_lt hr)⟩
      · refine ⟨_, by rw [putAll, exec_putc_of_lastCell h hc hk hr]; rfl,
          fun hlt => absurd hr (Nat.ne_of_lt hlt), fun _ => ⟨h.doneAt_zero h.row, fun hpos => ?_⟩⟩
        obtain ⟨r, rfl⟩ := Nat.exists_eq_add_of_le' hpos
        exact hdrawn.scroll (by rw [List.length_append]; exact h.column) h.row (scrolled_scroll h.descriptor _ _)
    | cons c' rest =>
      simp only [List.length_cons] at hlen
      have hk : cs.length + 1 < gridW s.params s.desc := by omega
      have hlen' : (cs ++ [c]).length + (c' :: rest).length = gridW s.params s.desc := by
        simp only [List.length_append, List.length_cons, List.length_nil]; omega
      have hcell : AtCell (doneAt s ((cs.length + 1) * cw s.params) (r * ch s.params) (glyphDevice s c cs.length r))
          (cs ++ [c]).length r := by
        rw [List.length_append]; exact h.doneAt hk h.row
      have hnext := ih hcell hrest hlen' hdrawn
      rw [List.append_assoc] at hnext
      rwa [putAll, exec_putc_of_column_lt h hc hk]

/-- Settles O29: a line that starts with no character on its row fills it. -/
theorem aFullLineOfCharactersWraps : Obligations.AFullLineOfCharactersWraps := by
  intro s r cs h hlen hcs
  obtain ⟨t, e, hwrap, hscroll⟩ := putAll_fills_row (cs := []) h hcs (by rwa [List.length_nil, Nat.zero_add])
    (lineHolds_nil _ _ _ _ _)
  refine ⟨t, e, fun hr => ?_, fun hr => ?_⟩
  · obtain ⟨hcell, hline⟩ := hwrap hr
    exact ⟨hcell, fun k x y hk => hline k x y (hlen ▸ hk)⟩
  · obtain ⟨hcell, hline⟩ := hscroll hr
    exact ⟨hcell, fun k x y hpos hk => hline hpos k x y (hlen ▸ hk)⟩

end Sys2Proof.Machine
end

/-! The console mode (44_console_mode.md): the palette that each MODE selects, and SETPANIC. -/

section

namespace Sys2Proof.Machine

variable {s : State}

/-- The active palette in Normal mode (R28). -/
theorem activeColors_of_normal (h : s.mode = .normal) : activeColors s = s.params.normal := by
  rw [activeColors, h]

/-- The active palette in Panic mode (R28). -/
theorem activeColors_of_panic (h : s.mode = .panic) : activeColors s = s.params.panic := by
  rw [activeColors, h]

/-- SETPANIC on a configured block, in either mode (R200). -/
theorem exec_setpanic_of_configured (h : s.configured = true) :
    exec .setpanic s = .next (s.setPanicMode.respond .ok 0#24) := by
  rw [exec, execSetpanic, ifConfigured_of_true h, respondOk]

/-- Settles O30: MODE decides the palette, and SETPANIC writes MODE and its response alone. -/
theorem setpanicSelectsTheAlertPalette : Obligations.SetpanicSelectsTheAlertPalette := fun _ =>
  ⟨activeColors_of_normal, activeColors_of_panic, exec_setpanic_of_configured⟩

end Sys2Proof.Machine
end

/-! The host's print (45_host_console.md R210 to R216): a character's commands, from its UTF-8 bytes. -/

section

namespace Sys2Proof.Machine

/-! ### One byte -/

/-- A printable code has bit 7 clear (R150). -/
theorem msb_of_printable {b : Byte} (h : printable b) : b.msb = false :=
  BitVec.msb_eq_false_iff_two_mul_lt.2 (by have := h.2; omega)

theorem byteCommands_of_msb {b : Byte} (h : b.msb = true) : byteCommands b = [] :=
  if_neg fun hb => Bool.false_ne_true ((msb_of_printable hb).symm.trans h)

theorem mem_byteCommands {b : Byte} {i : Instr} : i ∈ byteCommands b ↔ printable b ∧ i = .putc b := by
  rw [byteCommands, List.mem_ite_nil_right, List.mem_singleton]

/-! ### One character -/

/-- A byte that carries a UTF-8 marker with bit 7 set has its own bit 7 set. -/
theorem msb_ofNat_or {marker : Nat} (h : marker.testBit 7 = true) (v : Nat) :
    (BitVec.ofNat 8 (marker ||| v)).msb = true := by
  rw [BitVec.msb_eq_getLsbD_last, BitVec.getLsbD_ofNat, Nat.testBit_or, h]
  rfl

theorem utf8Bytes_of_ascii {u : Nat} (h : u < 0x80) : utf8Bytes u = [BitVec.ofNat 8 u] := if_pos h

/-- Every byte of a multi-byte sequence, the first and the continuations alike, has bit 7 set (R215). -/
theorem msb_of_mem_utf8Bytes {u : Nat} (h : 0x80 ≤ u) : ∀ b ∈ utf8Bytes u, b.msb = true := by
  have lead2 := msb_ofNat_or (marker := 0xC0) (by decide)
  have lead3 := msb_ofNat_or (marker := 0xE0) (by decide)
  have lead4 := msb_ofNat_or (marker := 0xF0) (by decide)
  have tail := msb_ofNat_or (marker := 0x80) (by decide)
  rw [utf8Bytes, if_neg (Nat.not_lt.2 h)]
  split
  · simp only [List.forall_mem_cons, List.not_mem_nil, false_implies, implies_true, lead2, tail, and_self]
  split
  · simp only [List.forall_mem_cons, List.not_mem_nil, false_implies, implies_true, lead3, tail, and_self]
  · simp only [List.forall_mem_cons, List.not_mem_nil, false_implies, implies_true, lead4, tail, and_self]

/-- A character that is no newline, return or tab is filtered byte by byte (R214). -/
theorem charCommands_of_not_control {c : Char} (hn : c.toNat ≠ 0x0A) (hr : c.toNat ≠ 0x0D) (ht : c.toNat ≠ 0x09) :
    charCommands c = (utf8Bytes c.toNat).flatMap byteCommands := by
  rw [charCommands, if_neg hn, if_neg hr, if_neg ht]

/-- All that a character can become. -/
theorem mem_charCommands {c : Char} {i : Instr} (h : i ∈ charCommands c) :
    i = .newline ∨ i = .linestart ∨ ∃ b, printable b ∧ i = .putc b := by
  rw [charCommands] at h
  split at h
  · exact .inl (List.mem_singleton.1 h)
  split at h
  · exact .inr (.inl (List.mem_singleton.1 h))
  split at h
  · exact .inr (.inr ⟨0x20#8, by decide, List.eq_of_mem_replicate h⟩)
  · obtain ⟨b, -, hb⟩ := List.mem_flatMap.1 h
    exact .inr (.inr ⟨b, mem_byteCommands.1 hb⟩)

/-! ### The statements -/

/-- Settles O50, by whether the character is ASCII: one byte with the character's own code, or bytes that are all
dropped. -/
theorem byteFilterEqualsCodepointFilter : Obligations.ByteFilterEqualsCodepointFilter := by
  intro c hn hr ht
  rw [charCommands_of_not_control hn hr ht]
  rcases Nat.lt_or_ge c.toNat 0x80 with hascii | hmulti
  · have hcode : (BitVec.ofNat 8 c.toNat).toNat = c.toNat := by
      rw [BitVec.toNat_ofNat, Nat.mod_eq_of_lt (by omega)]
    rw [utf8Bytes_of_ascii hascii, List.flatMap_singleton, byteCommands]
    exact if_congr (by simp only [printable, hcode]) rfl rfl
  · rw [if_neg (by omega), List.flatMap_eq_nil_iff]
    exact fun b hb => byteCommands_of_msb (msb_of_mem_utf8Bytes hmulti b hb)

/-- Settles O52: a command of a text is one of its characters', and only PUTC has an operand to check. -/
theorem printSendsOnlyGoodCommands : Obligations.PrintSendsOnlyGoodCommands := by
  intro text i hi
  obtain ⟨c, -, hc⟩ := List.mem_flatMap.1 hi
  rcases mem_charCommands hc with rfl | rfl | ⟨b, hb, rfl⟩
  · exact ⟨rfl, nofun⟩
  · exact ⟨rfl, nofun⟩
  · exact ⟨decide_eq_true hb, nofun⟩

/-- Settles O51: the three control characters have branches of their own, and a space is a printable byte. -/
theorem controlCharactersAreTheirCommands : Obligations.ControlCharactersAreTheirCommands := by
  have hspace : charCommands ' ' = [.putc 0x20#8] :=
    byteFilterEqualsCodepointFilter ' ' (by decide) (by decide) (by decide)
  refine ⟨rfl, rfl, rfl, ?_⟩
  simp only [printCommands, List.flatMap_cons, List.flatMap_nil, hspace]
  rfl

end Sys2Proof.Machine
end

/-! Rejections (60_exceptions.md R231 to R233, R246): a command before INIT, the one effect of a rejection, and why a
good command of a configured block is not rejected. -/

section

namespace Sys2Proof.Machine

variable {s t : State} {i : Instr} {k r : Nat}

/-- Settles O34: every command but INIT makes the check of R233 step 3 first. -/
theorem onlyInitRunsBeforeInit : Obligations.OnlyInitRunsBeforeInit := by
  intro s i hc hi
  cases i with
  | init d => exact absurd rfl (hi d)
  | _ => exact ifConfigured_of_false hc

/-! ### A rejection changes nothing (R232) -/

/-- A response word has one STATUS (R84). -/
theorem status_of_response {resp : Word64} {st : Status} {data : Rgb24} {ws before : List Word64}
    (h : ws = resp :: before) (e : ws = responseWord st data :: before) : resp.extractLsb' 56 8 = st.code := by
  rw [(List.cons.inj (h.symm.trans e)).1]
  exact (responseWordLayout.1 st data).1

/-- A command that answers with a code of 0x80 or above has sent that answer and done nothing else. -/
theorem exec_of_rejection {resp : Word64} (h : exec i s = .next t) (hr : t.responses = resp :: s.responses)
    (hcode : 0x80 ≤ (resp.extractLsb' 56 8).toNat) : ∃ cause, t = s.reject cause := by
  have accepted {st : Status} {data : Rgb24} (hst : st.code.toNat < 0x80)
      (e : t.responses = responseWord st data :: s.responses) : False := by
    rw [status_of_response hr e] at hcode
    exact absurd hst hcode.not_gt
  cases exec_answered h with
  | rejected cause _ after => exact ⟨cause, after⟩
  | constructed d dev _ _ after => exact (accepted (st := .ok) (by decide) (congrArg State.responses after)).elim
  | completed u st data same _ status _ after =>
    have hst : st.code.toNat < 0x80 := by rcases status with rfl | ⟨rfl, -⟩ <;> decide
    exact (accepted hst (by rw [after, State.respond_responses, same.responses])).elim
  | panicked _ _ after => exact (accepted (st := .ok) (by decide) (congrArg State.responses after)).elim

/-- The same of a word on the port: a held word sends no response, and any other empties PENDING. -/
theorem Delivered.of_rejection {resp : Word64} (h : Delivered s t) (hr : t.responses = resp :: s.responses)
    (hcode : 0x80 ≤ (resp.extractLsb' 56 8).toNat) : ∃ cause, t = (s.setPending none).reject cause := by
  cases h with
  | held w _ after => rw [after] at hr; exact absurd hr.symm (List.cons_ne_self _ _)
  | rejected cause after => exact ⟨cause, after⟩
  | executed i run => exact exec_of_rejection run hr hcode

/-- Settles O35: a step on a word delivers it, and the response that is known is the rejection's. -/
theorem aRejectedCommandHasNoEffect : Obligations.ARejectedCommandHasNoEffect := by
  intro s t w rest resp hi h hr hcode
  rw [step_of_word hi] at h
  obtain ⟨cause, rfl⟩ := (deliverWord_delivered h).of_rejection hr hcode
  rw [← (List.cons.inj hr).1]
  rfl

/-! ### A good command is not rejected (R246) -/

/-- On a cell of the grid a printable PUTC draws its glyph and moves the cursor, from whichever cell (R168, R173). -/
theorem exec_putc_of_printable {c : Byte} (h : AtCell s k r) (hc : printable c) :
    ∃ x v d, exec (.putc c) s = .next (doneAt s x v d) := by
  rcases Nat.lt_or_eq_of_le h.column with hk | hk
  · exact ⟨_, _, _, exec_putc_of_column_lt h hc hk⟩
  · rcases Nat.lt_or_eq_of_le h.row with hr | hr
    exacts [⟨_, _, _, exec_putc_of_lastColumn h hc hk hr⟩, ⟨_, _, _, exec_putc_of_lastCell h hc hk hr⟩]

/-- Settles O38, by the equation of each command on a cell of the grid. -/
theorem aGoodCommandIsNeverRejected : Obligations.AGoodCommandIsNeverRejected := by
  intro s i k r h hwf hi
  cases i with
  | init d => exact absurd rfl (hi d)
  | fill p =>
    obtain ⟨dev, e, -⟩ := fillPaintsTheVisibleScreen s p h.configured h.descriptor
    exact ⟨_, .ok, _, e, rfl, .inl rfl⟩
  | drawpx x v p =>
    by_cases hv : visible s.desc x.toNat v.toNat
    · exact ⟨_, .ok, _, exec_drawpx_of_visible h.configured h.descriptor hv p, rfl, .inl rfl⟩
    · exact ⟨_, .ok, _, exec_drawpx_of_not_visible h.configured hv p, rfl, .inl rfl⟩
  | readpx x v =>
    by_cases hv : visible s.desc x.toNat v.toNat
    · exact ⟨_, .ok, _, exec_readpx_of_visible h.configured h.descriptor hv, rfl, .inl rfl⟩
    · exact ⟨_, .absent, _, exec_readpx_of_not_visible h.configured hv, rfl, .inr rfl⟩
  | putc c =>
    obtain ⟨x, v, d, e⟩ := exec_putc_of_printable h (of_decide_eq_true hwf)
    exact ⟨_, .ok, _, e, rfl, .inl rfl⟩
  | godown =>
    rcases Nat.lt_or_eq_of_le h.row with hr | hr
    exacts [⟨_, .ok, _, exec_godown_of_row_lt h hr, rfl, .inl rfl⟩,
      ⟨_, .ok, _, exec_godown_of_lastRow h hr, rfl, .inl rfl⟩]
  | linestart => exact ⟨_, .ok, _, exec_linestart h, rfl, .inl rfl⟩
  | newline =>
    rcases Nat.lt_or_eq_of_le h.row with hr | hr
    exacts [⟨_, .ok, _, exec_newline_of_row_lt h hr, rfl, .inl rfl⟩,
      ⟨_, .ok, _, exec_newline_of_lastRow h hr, rfl, .inl rfl⟩]
  | setpanic => exact ⟨_, .ok, _, exec_setpanic_of_configured h.configured, rfl, .inl rfl⟩

end Sys2Proof.Machine
end

/-! The internal fault (60_exceptions.md R247, 43_charbuffer.md R161): the scroll copies inside the grid whatever the
registers hold, so all that can stop a command is an access outside the address space. -/

section

namespace Sys2Proof.Machine

variable {s : State}

/-- The result is not the fault of a copy outside the grid. -/
def NoInternalFault (r : Result) : Prop := r ≠ .fault .copyOutOfGrid

/-! ### Sequencing -/

theorem NoInternalFault.next (s : State) : NoInternalFault (.next s) := nofun

theorem NoInternalFault.fault {f : Fault} (h : f = .addressOutOfSpace) : NoInternalFault (.fault f) := by
  subst h
  exact nofun

theorem NoInternalFault.andThen {r : Result} {k : State → Result} (hr : NoInternalFault r)
    (hk : ∀ m, NoInternalFault (k m)) : NoInternalFault (andThen r k) := by
  cases r with
  | next m => exact hk m
  | fault f => exact hr
  | refused c => exact nofun

theorem NoInternalFault.onDevice {op : Device → Except Fault Device} {k : State → Result}
    (hop : ∀ {d f}, op d = .error f → f = .addressOutOfSpace) (hk : ∀ m, NoInternalFault (k m)) :
    NoInternalFault (onDevice s op k) := by
  unfold Machine.onDevice
  split
  · exact hk _
  · exact .fault (hop ‹_›)

theorem NoInternalFault.ifConfigured {body : Result} (hb : NoInternalFault body) :
    NoInternalFault (ifConfigured s body) := by
  unfold Machine.ifConfigured
  split
  exacts [hb, .next _]

/-! ### Commands -/

theorem memRead_error {a : Nat} {d : Device} {f : Fault} (h : memRead a d = .error f) : f = .addressOutOfSpace := by
  unfold memRead at h
  split at h <;> cases h
  rfl

theorem getPixelIfVisible_error {g : Descriptor} {h v : Nat} {d : Device} {f : Fault}
    (e : getPixelIfVisible g h v d = .error f) : f = .addressOutOfSpace := by
  unfold getPixelIfVisible at e
  split at e
  · split at e <;> cases e
    exact memRead_error ‹_›
  · cases e

theorem scroll_noInternalFault (s : State) : NoInternalFault (scroll s) :=
  .onDevice shiftRowsUp_error fun _ => .onDevice clearLastRow_error fun _ => .next _

theorem scrollCheck_noInternalFault (s : State) : NoInternalFault (scrollCheck s) := by
  unfold scrollCheck
  split
  exacts [scroll_noInternalFault s, .next s]

theorem advanceCursor_noInternalFault (s : State) : NoInternalFault (advanceCursor s) := by
  unfold advanceCursor wrapIfFull
  split
  exacts [scrollCheck_noInternalFault _, .next _]

theorem exec_noInternalFault (i : Instr) (s : State) : NoInternalFault (exec i s) := by
  have ended {r : Result} (hr : NoInternalFault r) : NoInternalFault (andThen r respondOk) :=
    hr.andThen fun _ => .next _
  cases i with
  | init d =>
    rw [exec, execInit]
    split
    · exact .next _
    · split
      exacts [.onDevice paint_error fun _ => .next _, .next _]
  | fill p => exact .ifConfigured (.onDevice paint_error fun _ => .next _)
  | drawpx h v p => exact .ifConfigured (.onDevice drawPixelIfVisible_error fun _ => .next _)
  | readpx h v =>
    refine .ifConfigured ?_
    split
    · exact .next _
    · exact .next _
    · exact .fault (getPixelIfVisible_error ‹_›)
  | putc c =>
    refine .ifConfigured ?_
    split
    exacts [.onDevice paint_error fun _ => ended (advanceCursor_noInternalFault _), .next _]
  | godown => exact .ifConfigured (ended (scrollCheck_noInternalFault _))
  | linestart => exact .ifConfigured (ended (scrollCheck_noInternalFault _))
  | newline =>
    exact .ifConfigured (ended ((scrollCheck_noInternalFault _).andThen fun _ => scrollCheck_noInternalFault _))
  | setpanic => exact .ifConfigured (.next _)

/-! ### Steps -/

theorem runFramed_noInternalFault (w0 w1 : Word64) (s : State) : NoInternalFault (runFramed w0 w1 s) := by
  unfold runFramed
  split
  exacts [exec_noInternalFault _ s, .next _]

theorem deliverWord_noInternalFault (w : Word64) (s : State) : NoInternalFault (deliverWord w s) := by
  unfold deliverWord
  split
  · exact runFramed_noInternalFault _ _ _
  · split
    exacts [.next _, runFramed_noInternalFault _ _ _]

theorem step_noInternalFault (s : State) : NoInternalFault (step s) := by
  rw [step, nextStep]
  cases s.input with
  | nil => exact .next s
  | cons e rest =>
    cases e with
    | word w => exact deliverWord_noInternalFault w _
    | reset => exact .next _
    | wordThenReset w n => exact (deliverWord_noInternalFault w _).andThen fun _ => .next _
    | call c => exact .next _

/-- Settles O41: commands and steps stop only for an access outside the address space. -/
theorem theInternalFaultIsUnreachable : Obligations.TheInternalFaultIsUnreachable :=
  ⟨fun s i => exec_noInternalFault i s, step_noInternalFault⟩

end Sys2Proof.Machine
end

/-! MODE is a choice of colours (60_exceptions.md R240): whether an operation completes depends on addresses alone, so a
command runs alike from states that differ in MODE and in what the device holds. -/

section

namespace Sys2Proof.Machine

variable {s t : State} {i : Instr}

/-- `s` with another MODE and another device, as other colours would have left it. -/
def State.recolour (s : State) (m : Mode) (d : Device) : State := { s with mode := m, dev := d }

/-- Where `r` completes, `r'` does, in the same state but for MODE and the device. -/
def CompletesAlike (r r' : Result) : Prop := ∀ t, r = .next t → ∃ m d, r' = .next (t.recolour m d)

/-! ### Sequencing -/

theorem CompletesAlike.next (s : State) (m : Mode) (d : Device) :
    CompletesAlike (.next s) (.next (s.recolour m d)) := by
  rintro _ ⟨rfl⟩
  exact ⟨m, d, rfl⟩

theorem CompletesAlike.refl (r : Result) : CompletesAlike r r := fun t h => ⟨t.mode, t.dev, h⟩

theorem CompletesAlike.andThen {r r' : Result} {k k' : State → Result} (hr : CompletesAlike r r')
    (hk : ∀ s m d, CompletesAlike (k s) (k' (s.recolour m d))) : CompletesAlike (andThen r k) (andThen r' k') := by
  intro t h
  obtain ⟨u, rfl, h⟩ := andThen_eq_next.1 h
  obtain ⟨m, d, rfl⟩ := hr u rfl
  exact hk u m d t h

theorem CompletesAlike.respondOk {r r' : Result} (hr : CompletesAlike r r') :
    CompletesAlike (Machine.andThen r respondOk) (Machine.andThen r' respondOk) :=
  hr.andThen fun s m d => .next (s.respond .ok 0#24) m d

theorem CompletesAlike.onDevice {op op' : Device → Except Fault Device} {k k' : State → Result} {m : Mode} {d : Device}
    (hop : ∀ e, op s.dev = .ok e → ∃ e', op' d = .ok e')
    (hk : ∀ e e', CompletesAlike (k (s.setDevice e)) (k' ((s.setDevice e).recolour m e'))) :
    CompletesAlike (onDevice s op k) (onDevice (s.recolour m d) op' k') := by
  intro t h
  obtain ⟨e, ho, h⟩ := onDevice_eq_next.1 h
  obtain ⟨e', ho'⟩ := hop e ho
  rw [onDevice_eq (s := s.recolour m d) ho']
  exact hk e e' t h

theorem CompletesAlike.ifConfigured {b b' : Result} {m : Mode} {d : Device} (hb : CompletesAlike b b') :
    CompletesAlike (ifConfigured s b) (ifConfigured (s.recolour m d) b') := by
  cases hc : s.configured with
  | true => rwa [ifConfigured_of_true hc, ifConfigured_of_true (s := s.recolour m d) hc]
  | false =>
    rw [ifConfigured_of_false hc, ifConfigured_of_false (s := s.recolour m d) hc]
    exact .next (s.reject .rejNotConfigured) m d

/-! ### The cursor's moves (43_charbuffer.md R162, R167 to R172) -/

theorem scroll_completesAlike (s : State) (m : Mode) (d : Device) :
    CompletesAlike (scroll s) (scroll (s.recolour m d)) :=
  .onDevice (fun _ h => shiftRowsUp_completes h d) fun _ d1 =>
    .onDevice (fun _ h => clearLastRow_completes h _ d1) fun e d2 =>
      .next (((s.setDevice e).setCurH 0).setCurV ((gridH s.params s.desc - 1) * ch s.params)) m d2

theorem scrollCheck_completesAlike (s : State) (m : Mode) (d : Device) :
    CompletesAlike (scrollCheck s) (scrollCheck (s.recolour m d)) := by
  by_cases hf : s.desc.vres.toNat < s.curV.toNat + ch s.params
  · rw [scrollCheck, if_pos hf, scrollCheck, if_pos (by exact hf)]
    exact scroll_completesAlike s m d
  · rw [scrollCheck, if_neg hf, scrollCheck, if_neg (by exact hf)]
    exact .next s m d

theorem goDown_completesAlike (s : State) (m : Mode) (d : Device) :
    CompletesAlike (goDown s) (goDown (s.recolour m d)) :=
  scrollCheck_completesAlike (s.setCurV (s.curV.toNat + ch s.params)) m d

theorem goToLineStart_completesAlike (s : State) (m : Mode) (d : Device) :
    CompletesAlike (goToLineStart s) (goToLineStart (s.recolour m d)) :=
  scrollCheck_completesAlike (s.setCurH 0) m d

theorem wrapIfFull_completesAlike (s : State) (m : Mode) (d : Device) :
    CompletesAlike (wrapIfFull s) (wrapIfFull (s.recolour m d)) := by
  by_cases hf : s.desc.hres.toNat < s.curH.toNat + cw s.params
  · rw [wrapIfFull, if_pos hf, wrapIfFull, if_pos (by exact hf)]
    exact scrollCheck_completesAlike ((s.setCurH 0).setCurV (s.curV.toNat + ch s.params)) m d
  · rw [wrapIfFull, if_neg hf, wrapIfFull, if_neg (by exact hf)]
    exact .next s m d

theorem advanceCursor_completesAlike (s : State) (m : Mode) (d : Device) :
    CompletesAlike (advanceCursor s) (advanceCursor (s.recolour m d)) :=
  wrapIfFull_completesAlike (s.setCurH (s.curH.toNat + cw s.params)) m d

/-! ### Commands -/

/-- A command runs alike under another MODE: INIT and SETPANIC write MODE, the other framebuffer commands do not read
it, and the rest choose colours by it. -/
theorem exec_completesAlike (i : Instr) (s : State) (m : Mode) :
    CompletesAlike (exec i s) (exec i (s.recolour m s.dev)) := by
  cases i with
  | init g =>
    cases hc : s.configured with
    | true =>
      rw [exec, execInit, if_pos hc, exec, execInit, if_pos (by exact hc)]
      exact .next (s.reject .rejAlreadyConfigured) m s.dev
    | false =>
      by_cases hg : descriptorOk g
      · rw [exec_init_of_ok hg hc, exec_init_of_ok hg (by exact hc)]
        exact .refl _
      · rw [exec_init_of_not_ok hg hc, exec_init_of_not_ok hg (by exact hc)]
        exact .next (s.reject .rejBadDescriptor) m s.dev
  | fill q =>
    exact .ifConfigured (.onDevice (fun e h => ⟨e, h⟩) fun e e' => .next ((s.setDevice e).respond .ok 0#24) m e')
  | drawpx h v q =>
    exact .ifConfigured (.onDevice (fun e h => ⟨e, h⟩) fun e e' => .next ((s.setDevice e).respond .ok 0#24) m e')
  | readpx h v =>
    refine .ifConfigured ?_
    simp only [State.recolour]
    split
    · exact .next ((s.setDevice _).respond .ok _) m _
    · exact .next ((s.setDevice _).respond .absent 0#24) m _
    · exact nofun
  | putc c =>
    refine .ifConfigured ?_
    split
    · exact .onDevice (fun _ h => paint_completes h _ s.dev) fun e e' =>
        .respondOk (advanceCursor_completesAlike (s.setDevice e) m e')
    · exact .next (s.reject .rejNotPrintable) m s.dev
  | godown => exact .ifConfigured (.respondOk (goDown_completesAlike s m s.dev))
  | linestart => exact .ifConfigured (.respondOk (goToLineStart_completesAlike s m s.dev))
  | newline => exact .ifConfigured (.respondOk (.andThen (goDown_completesAlike s m s.dev) goToLineStart_completesAlike))
  | setpanic => exact .ifConfigured (.refl _)

/-- Settles O32: MODE and the device are all that another MODE can change. -/
theorem modeDoesNotChangeTheAnswers : Obligations.ModeDoesNotChangeTheAnswers := by
  intro s t i m h
  obtain ⟨m', d, e⟩ := exec_completesAlike i s m t h
  exact ⟨t.recolour m' d, e, rfl, rfl, rfl, rfl⟩

end Sys2Proof.Machine
end

/-! Reset (70_reset_and_hazards.md R260, R262): the reset input, and a command that a reset cuts short. -/

section

namespace Sys2Proof.Machine

variable {s u : State} {w : Word64} {rest : List Event}

/-- Settles O42: a step on a reset input is `applyReset`, and the reset state is a literal. -/
theorem resetInputResetsTheRegisters : Obligations.ResetInputResetsTheRegisters := by
  refine ⟨fun s rest hi => ?_, rfl, rfl, rfl, rfl, rfl⟩
  rw [step, nextStep, hi]
  rfl

/-! ### The writes of a history -/

/-- Memory after the words of some accesses are stored, in order. -/
def storeAll (m : Memory) (accs : List Access) : Memory :=
  accs.foldl (fun m acc => Memory.write32 m acc.addr acc.value) m

/-- Of the accesses performed, the writes alone make memory. -/
theorem replay_mem (accs : List Access) (d : Device) :
    (accs.foldl replayAccess d).mem = storeAll d.mem (accs.filter Access.isWrite) := by
  induction accs generalizing d with
  | nil => rfl
  | cons acc accs ih => cases acc <;> exact ih _

/-- The writes among the first accesses are the first of the writes. -/
theorem exists_take_filter_eq_filter_take (accs : List Access) (n : Nat) :
    ∃ k, (accs.take n).filter Access.isWrite = (accs.filter Access.isWrite).take k :=
  ⟨_, List.prefix_iff_eq_take.1 ((List.take_prefix n accs).filter _)⟩

/-- Every first part of the writes is the writes among some first accesses. -/
theorem exists_filter_take_eq_take_filter (accs : List Access) (k : Nat) :
    ∃ n, (accs.take n).filter Access.isWrite = (accs.filter Access.isWrite).take k := by
  obtain ⟨first, later, rfl, hfirst, -⟩ :=
    List.filter_eq_append_iff.1 (List.take_append_drop k (accs.filter Access.isWrite)).symm
  exact ⟨first.length, by rw [List.take_left, hfirst]⟩

/-! ### A command cut short -/

/-- The word with a reset, where the word's own step completes. -/
theorem step_of_wordThenReset (hi : s.input = .word w :: rest) (h : step s = .next u) (n : Nat) :
    step { s with input := .wordThenReset w n :: rest } = .next (cutShort n (s.setInput rest) u) := by
  have run : step { s with input := .wordThenReset w n :: rest } =
      andThen (deliverWord w (s.setInput rest)) fun t => .next (cutShort n (s.setInput rest) t) := rfl
  rw [run, ← step_of_word hi, h, andThen_next]

/-- A command cut short has stored the writes among its first accesses. -/
theorem cutShort_mem {accs : List Access} (h : u.dev = accs.foldl replayAccess s.dev) (n : Nat) :
    (cutShort n s u).dev.mem = storeAll s.dev.mem ((accs.take n).filter Access.isWrite) := by
  rw [cutShort, h, accessesSince_replay, State.setDevice_dev, replay_mem]

/-- Settles O43: a reset after `n` accesses keeps the writes among them, which are the first of the command's writes. -/
theorem resetDuringACommandLeavesAPrefixOfItsWrites : Obligations.ResetDuringACommandLeavesAPrefixOfItsWrites := by
  intro s u w rest new hi h htrace
  have cut := step_of_wordThenReset hi h
  rw [step_of_word hi] at h
  obtain ⟨accs, hdev, -⟩ := (deliverWord_delivered h).accessed
  have hnew : new.reverse = accs := by
    rw [hdev, replay_trace, State.setInput_dev] at htrace
    rw [← List.append_cancel_right htrace, List.reverse_reverse]
  rw [hnew]
  constructor
  · intro n
    obtain ⟨k, hk⟩ := exists_take_filter_eq_filter_take accs n
    exact ⟨_, k, cut n, rfl, rfl, rfl, rfl, rfl, rfl, rfl, rfl, hk ▸ cutShort_mem hdev n⟩
  · intro k _
    obtain ⟨n, hn⟩ := exists_filter_take_eq_take_filter accs k
    exact ⟨n, _, cut n, hn ▸ cutShort_mem hdev n⟩

end Sys2Proof.Machine
end

/-! How many reads and writes each command makes (70_reset_and_hazards.md R270, 43_charbuffer.md R167). -/

section

namespace Sys2Proof.Machine

variable {s t : State} {i : Instr} {k r : Nat} {p : Params} {g : Descriptor} {d d' d'' : Device}

/-- `d'` is `d` after that many reads and that many writes. -/
def AccessedTimes (reads writes : Nat) (d d' : Device) : Prop :=
  ∃ accs : List Access, d' = accs.foldl replayAccess d ∧
    accs.countP (fun acc => !acc.isWrite) = reads ∧ accs.countP Access.isWrite = writes

theorem AccessedTimes.refl (d : Device) : AccessedTimes 0 0 d d := ⟨[], rfl, rfl, rfl⟩

theorem AccessedTimes.trans {n n' m m' : Nat} (h : AccessedTimes n m d d') (h' : AccessedTimes n' m' d' d'') :
    AccessedTimes (n + n') (m + m') d d'' := by
  obtain ⟨accs, rfl, rfl, rfl⟩ := h
  obtain ⟨accs', rfl, rfl, rfl⟩ := h'
  exact ⟨accs ++ accs', (List.foldl_append ..).symm, List.countP_append, List.countP_append⟩

/-- The history grows by that many reads and that many writes. -/
theorem AccessedTimes.trace {n m : Nat} (h : AccessedTimes n m d d') : ∃ new, d'.trace = new ++ d.trace ∧
    (new.filter fun acc => !acc.isWrite).length = n ∧ (new.filter fun acc => acc.isWrite).length = m := by
  obtain ⟨accs, rfl, hreads, hwrites⟩ := h
  refine ⟨accs.reverse, replay_trace accs d, ?_, ?_⟩
  · rw [← List.countP_eq_length_filter, List.countP_reverse, hreads]
  · rw [← List.countP_eq_length_filter, List.countP_reverse, hwrites]

/-- Accesses that are all writes. -/
theorem accessedTimes_of_writes {accs : List Access} (h : ∀ acc ∈ accs, acc.isWrite = true) (d : Device) :
    AccessedTimes 0 accs.length d (accs.foldl replayAccess d) :=
  ⟨accs, rfl, List.countP_eq_zero.2 fun acc hm => by simp [h acc hm], List.countP_eq_length.2 h⟩

/-! ### The operations (R123, R154, R167) -/

/-- A rectangle of visible pixels takes one write a pixel and no read. -/
theorem accessedTimes_paint {h0 v0 w h : Nat} {color : Nat → Nat → Pixel}
    (hv : ∀ y x, y < h → x < w → visible g (h0 + x) (v0 + y)) (d : Device) :
    AccessedTimes 0 (h * w) d ((paintAccesses g h0 v0 w h color).foldl replayAccess d) := by
  have key := accessedTimes_of_writes (accs := paintAccesses g h0 v0 w h color) (fun acc hm => ?_) d
  · rwa [length_paintAccesses hv] at key
  · obtain ⟨y, x, -, -, -, rfl⟩ := mem_paintAccesses.1 hm
    rfl

theorem accessedTimes_fillScreen (hg : descriptorOk g) {q : Pixel} (e : fillScreen g q d = .ok d') :
    AccessedTimes 0 (g.hres.toNat * g.vres.toNat) d d' := by
  rw [fillScreen_eq hg] at e
  cases e
  rw [Nat.mul_comm]
  exact accessedTimes_paint (fun y x hy hx => by simpa using And.intro hx hy) d

theorem accessedTimes_glyphDevice (h : AtCell s k r) (c : Byte) :
    AccessedTimes 0 (cw s.params * ch s.params) s.dev (glyphDevice s c k r) := by
  rw [glyphDevice, ← paintAccesses_glyph h.column h.row, Nat.mul_comm]
  exact accessedTimes_paint (fun _ _ hy hx => visible_of_inGrid (inGrid_cell h.column h.row hx hy)) _

/-- The shift reads and writes each pixel of rows 1 to H-1 once. -/
theorem accessedTimes_shift (p : Params) (g : Descriptor) (m : Memory) (d : Device) :
    AccessedTimes ((gridH p g - 1) * gridW p g * cw p * ch p) ((gridH p g - 1) * gridW p g * cw p * ch p) d
      ((shiftAccesses p g m).foldl replayAccess d) := by
  have shape : (gridH p g - 1) * (gridW p g * (ch p * (cw p * 1))) = (gridH p g - 1) * gridW p g * cw p * ch p := by
    ring
  refine ⟨_, rfl, ?_, ?_⟩
  · rw [List.countP_eq_length_filter, length_filter_shiftAccesses _ 1 (fun _ _ _ _ _ => rfl), shape]
  · rw [List.countP_eq_length_filter, length_filter_shiftAccesses _ 1 (fun _ _ _ _ _ => rfl), shape]

/-- The clear writes each pixel of the last row once. -/
theorem accessedTimes_clear (hg : descriptorOk g) (bg : Pixel) (d : Device) :
    AccessedTimes 0 (gridW p g * (ch p * cw p)) d ((clearAccesses p g bg).foldl replayAccess d) := by
  rw [← length_clearAccesses hg bg]
  refine accessedTimes_of_writes (fun acc hm => ?_) d
  obtain ⟨h, v, -, -, -, rfl⟩ := (mem_clearAccesses hg).1 hm
  rfl

/-- A scroll reads every cell but those of the first row, and writes every cell. -/
theorem accessedTimes_scrollDevice (hg : descriptorOk g) (bg : Pixel) (d : Device) :
    AccessedTimes ((gridH p g - 1) * gridW p g * cw p * ch p) (gridH p g * gridW p g * cw p * ch p) d
      (scrollDevice p g bg d) := by
  have rows : (gridH p g - 1) * gridW p g * cw p * ch p + gridW p g * (ch p * cw p) =
      gridH p g * gridW p g * cw p * ch p := by
    obtain ⟨n, hn⟩ := Nat.exists_eq_add_of_lt (gridH_pos (p := p) hg)
    rw [hn, Nat.zero_add, Nat.add_sub_cancel]
    ring
  rw [scrollDevice, scrollAccesses, List.foldl_append, ← rows]
  exact (accessedTimes_shift p g d.mem d).trans (accessedTimes_clear hg bg _)

/-! ### Each command (R270) -/

/-- A command that scrolls: its glyph, if it draws one, and the scroll. -/
theorem AtCell.accessedTimes_of_scrollsAt (h : AtCell s k r) (hw : i.wellFormed = true)
    (hs : scrollsAt i s.params s.desc k r) (e : Machine.exec i s = .next t) :
    AccessedTimes ((gridH s.params s.desc - 1) * gridW s.params s.desc * cw s.params * ch s.params)
      (ownWrites i s.params s.desc + gridH s.params s.desc * gridW s.params s.desc * cw s.params * ch s.params)
      s.dev t.dev := by
  have rowDown (hi : i = .godown ∨ i = .newline) (hr : r + 1 = gridH s.params s.desc) :
      AccessedTimes ((gridH s.params s.desc - 1) * gridW s.params s.desc * cw s.params * ch s.params)
        (gridH s.params s.desc * gridW s.params s.desc * cw s.params * ch s.params) s.dev t.dev := by
    cases (exec_rowDown_of_lastRow hi h hr).symm.trans e
    exact accessedTimes_scrollDevice h.descriptor _ _
  cases i with
  | init _ | fill _ | drawpx _ _ _ | readpx _ _ | linestart | setpanic => exact False.elim hs
  | putc c =>
    obtain ⟨hk, hr⟩ := hs
    cases (exec_putc_of_lastCell h (of_decide_eq_true hw) hk hr).symm.trans e
    have both := (accessedTimes_glyphDevice h c).trans
      (accessedTimes_scrollDevice (p := s.params) h.descriptor (activeColors s).bg _)
    rwa [Nat.zero_add] at both
  | godown => rw [ownWrites, Nat.zero_add]; exact rowDown (.inl rfl) hs
  | newline => rw [ownWrites, Nat.zero_add]; exact rowDown (.inr rfl) hs

/-- A command that does not scroll: what the command does itself. -/
theorem AtCell.accessedTimes_of_not_scrollsAt (h : AtCell s k r) (hw : i.wellFormed = true)
    (hi : ∀ d, i ≠ .init d) (hs : ¬ scrollsAt i s.params s.desc k r) (e : Machine.exec i s = .next t) :
    AccessedTimes (ownReads i s.desc) (ownWrites i s.params s.desc) s.dev t.dev := by
  have above (hr : r + 1 ≠ gridH s.params s.desc) : r + 1 < gridH s.params s.desc := by have := h.row; omega
  cases i with
  | init d => exact absurd rfl (hi d)
  | fill q =>
    rw [Machine.exec, execFill, ifConfigured_of_true h.configured] at e
    obtain ⟨d, op, done⟩ := onDevice_eq_next.1 e
    cases done
    exact accessedTimes_fillScreen h.descriptor op
  | drawpx x y q =>
    by_cases hv : visible s.desc x.toNat y.toNat
    · cases (exec_drawpx_of_visible h.configured h.descriptor hv q).symm.trans e
      rw [ownWrites, if_pos hv]
      exact ⟨[.write _ _], rfl, rfl, rfl⟩
    · cases (exec_drawpx_of_not_visible h.configured hv q).symm.trans e
      rw [ownWrites, if_neg hv]
      exact .refl _
  | readpx x y =>
    by_cases hv : visible s.desc x.toNat y.toNat
    · cases (exec_readpx_of_visible h.configured h.descriptor hv).symm.trans e
      rw [ownReads, if_pos hv]
      exact ⟨[.read _ _], rfl, rfl, rfl⟩
    · cases (exec_readpx_of_not_visible h.configured hv).symm.trans e
      rw [ownReads, if_neg hv]
      exact .refl _
  | putc c =>
    have hc : printable c := of_decide_eq_true hw
    by_cases hk : k + 1 < gridW s.params s.desc
    · cases (exec_putc_of_column_lt h hc hk).symm.trans e
      exact accessedTimes_glyphDevice h c
    · have hk : k + 1 = gridW s.params s.desc := by have := h.column; omega
      cases (exec_putc_of_lastColumn h hc hk (above fun hr => hs ⟨hk, hr⟩)).symm.trans e
      exact accessedTimes_glyphDevice h c
  | godown => cases (exec_godown_of_row_lt h (above hs)).symm.trans e; exact .refl _
  | linestart => cases (exec_linestart h).symm.trans e; exact .refl _
  | newline => cases (exec_newline_of_row_lt h (above hs)).symm.trans e; exact .refl _
  | setpanic =>
    rw [Machine.exec, execSetpanic, ifConfigured_of_true h.configured] at e
    cases e
    exact .refl _

/-- An accepted INIT writes each visible pixel of its descriptor once. -/
theorem accessedTimes_init {g : Descriptor} (hc : s.configured = false) (hg : descriptorOk g)
    (e : exec (.init g) s = .next t) : AccessedTimes 0 (ownWrites (.init g) s.params s.desc) s.dev t.dev := by
  rw [exec_init_of_ok hg hc] at e
  obtain ⟨d, op, done⟩ := onDevice_eq_next.1 e
  cases done
  exact accessedTimes_fillScreen hg op

/-- Settles O40, by whether the command scrolls; a history with no read is all writes. -/
theorem accessCountsOfEachCommand : Obligations.AccessCountsOfEachCommand := by
  constructor
  · intro s t i k r h hw hi e
    by_cases hs : scrollsAt i s.params s.desc k r
    · obtain ⟨new, htrace, counts⟩ := (h.accessedTimes_of_scrollsAt hw hs e).trace
      exact ⟨new, htrace, fun _ => counts, fun hn => absurd hs hn⟩
    · obtain ⟨new, htrace, counts⟩ := (h.accessedTimes_of_not_scrollsAt hw hi hs e).trace
      exact ⟨new, htrace, fun hn => absurd hn hs, fun _ => counts⟩
  · intro s t g hc hg e
    obtain ⟨new, htrace, hreads, hwrites⟩ := (accessedTimes_init hc hg e).trace
    refine ⟨new, htrace, List.length_eq_zero_iff.1 hreads, ?_⟩
    rw [List.length_eq_length_filter_add fun acc : Access => acc.isWrite, hreads, hwrites, Nat.add_zero]

end Sys2Proof.Machine
end

/-! Words written out from the spec's encodings (30_encoding.md R72 to R79, 95_test_vectors.md section 2.3). -/

section

namespace Sys2Proof

/-- Settles O3: each word's opcode, reserved bits and operand fields are evaluated. -/
theorem wordsOfTheSpecDecodeToTheirCommands : Obligations.WordsOfTheSpecDecodeToTheirCommands := by
  unfold Obligations.WordsOfTheSpecDecodeToTheirCommands
  decide

end Sys2Proof
end
